-- ==== Sys2Proof/Word.lean ====
section
/-! DEFINITION. The word types of the spec and the type of a SHA-256 chaining value.
Widths: 00_scope.md rules R6, R10; 10_state.md rules R22, R35, R39. -/

namespace Sys2Proof

/-- A byte is 8 bits (10_state.md R32). -/
abbrev Byte := BitVec 8

/-- 32-bit words: MISCSELECT, SSAFRAMESIZE, the words of SHA-256. -/
abbrev Word32 := BitVec 32

/-- 64-bit words: general registers, linear addresses, most SECS fields. -/
abbrev Word64 := BitVec 64

/-- ATTRIBUTES and its mask: 128 bits under the layout of 10_state.md R36. -/
abbrev Word128 := BitVec 128

/-- The chaining value of SHA-256, the eight words H0..H7 that MRENCLAVE holds (10_state.md R39). -/
structure HashState where
  h0 : Word32
  h1 : Word32
  h2 : Word32
  h3 : Word32
  h4 : Word32
  h5 : Word32
  h6 : Word32
  h7 : Word32
deriving DecidableEq, Repr

end Sys2Proof
end

