-- ==== Sys2Proof/Config.lean ====
section
/-! DEFINITION. What is fixed for one hardware instance: the parameters of 00_scope.md rule R8, as plain
data, and the two free values (uninterpreted constants with no body).
A `Config` is a field of `State` that no rule writes (log entry 1), so a statement about every state is a
statement about every configuration: no OPEN parameter of the spec is given a value here. The function
parameters of R8 whose arguments are words are finite tables, which can hold any such function (entry 2). -/

namespace Sys2Proof

/-- Where a field of a memory structure lies: byte offset and byte size (R8, the layouts). -/
structure FieldPos where
  off : Nat
  len : Nat
deriving DecidableEq, Repr

/-- `PAGEINFO_LAYOUT` (10_state.md R33). -/
structure PageinfoLayout where
  linaddr : FieldPos
  srcpge  : FieldPos
  secinfo : FieldPos
  secs    : FieldPos
deriving DecidableEq, Repr

/-- `SECINFO_LAYOUT` (10_state.md R34): where FLAGS lies, which of its bits are PT, and which of the 512
bits of the structure are reserved. -/
structure SecinfoLayout where
  flags    : FieldPos
  ptLo     : Nat
  ptLen    : Nat
  reserved : BitVec 512
deriving DecidableEq, Repr

/-- `SECS_LAYOUT` (10_state.md R36). -/
structure SecsLayout where
  size               : FieldPos
  baseaddr           : FieldPos
  ssaframesize       : FieldPos
  miscselect         : FieldPos
  cetLegBitmapOffset : FieldPos
  cetAttributes      : FieldPos
  attributes         : FieldPos
  mrenclave          : FieldPos
  mrsigner           : FieldPos
  configid           : FieldPos
  isvprodid          : FieldPos
  isvsvn             : FieldPos
  configsvn          : FieldPos
deriving DecidableEq, Repr

/-- The bits of ATTRIBUTES that the instruction looks at, and the lowest bit of its 64-bit subfield XFRM
(10_state.md R37). -/
structure AttributesLayout where
  mode64bit : Nat
  cet       : Nat
  kss       : Nat
  xfrmLo    : Nat
deriving DecidableEq, Repr

/-- A function as plain data: the listed arguments have the listed results, every other argument `other`. -/
structure FnTable (α β : Type) where
  entries : List (α × β)
  other   : β
deriving DecidableEq, Repr

/-- A run of consecutive physical page frames; `Config.epc` is a list of them (the set `EPC` of R8). -/
structure FrameRange where
  first : Nat
  count : Nat
deriving DecidableEq, Repr

/-- The six causes of a page fault, in the order of 60_exceptions.md R182: the argument of `pf_error_code`. -/
inductive PfSite where
  | destPaging
  | destOutsideEpc
  | pageinfoRead
  | secinfoRead
  | destValid
  | sourceRead
deriving DecidableEq, Repr

/-- The parameters of 00_scope.md R8 (for `translate` and the DS descriptor behind `ds_ok` see `State`). -/
structure Config where
  /-- The CPUID flag SGX1, a premise (10_state.md R28, R45). -/
  sgx1                     : Bool
  /-- `CPUID_CET_IBT`. -/
  cetIbt                   : Bool
  /-- `CPUID_CET_SS`. -/
  cetSs                    : Bool
  /-- `CPUID_MISC_SUPPORTED`. -/
  miscSupported            : Word32
  /-- `CPUID_MAXSIZE_NOT64`. -/
  maxSizeNot64             : Byte
  /-- `CPUID_MAXSIZE_64`. -/
  maxSize64                : Byte
  /-- `CR_SGX_ATTRIBUTES_MASK` (10_state.md R30). -/
  attributesMask           : Word128
  /-- `xfrm_illegal`. -/
  xfrmIllegal              : FnTable Word64 Bool
  /-- `compute_xsave_size`. -/
  xsaveSize                : FnTable Word64 Nat
  /-- `compute_misc_region_size`, a function of MISCSELECT (R9). -/
  miscRegionSize           : FnTable Word32 Nat
  /-- `GPR_SIZE`. -/
  gprSize                  : Nat
  /-- `LA_BITS`. -/
  laBits                   : Nat
  /-- `EPC`. -/
  epc                      : List FrameRange
  /-- `EID_BITS`. -/
  eidBits                  : Nat
  /-- `CR_NEXT_EID_reset`. -/
  nextEidReset             : Nat
  /-- `pf_error_code`. -/
  pfErrorCode              : FnTable PfSite Nat
  /-- `PAGEINFO_LAYOUT`. -/
  pageinfo                 : PageinfoLayout
  /-- `SECINFO_LAYOUT`. -/
  secinfo                  : SecinfoLayout
  /-- `SECS_LAYOUT`. -/
  secs                     : SecsLayout
  /-- The bits of ATTRIBUTES (R37). -/
  attr                     : AttributesLayout
  /-- The reserved bits of CET_ATTRIBUTES, as a mask (R37). -/
  cetReserved              : Nat
  /-- The reserved fields of the SECS: `secs_reserved_zero` of a page that is not listed is "these bytes are zero"
  (40_ecreate.md R146, log entry 18). -/
  secsReserved             : List FieldPos
  /-- Pages for which `secs_reserved_zero` answers otherwise than "these bytes are zero", so that any predicate of R8 can
  be held: each with its three overwritten fields zero (R146), and the answer for it. -/
  secsReservedListed       : List (List Byte × Bool)
  /-- `PT_SECS`. -/
  ptSecs                   : Byte
  /-- `SGX_CONFLICT`. -/
  sgxConflict              : Nat
  /-- `EPC_PAGE_CONFLICT_EXCEPTION`. -/
  epcPageConflictException : Nat
deriving DecidableEq, Repr

/-- The default of `PAGEINFO_LAYOUT` (R33, K3: PRESUMED by the spec itself). -/
def Config.defaultPageinfo : PageinfoLayout where
  linaddr := ⟨0, 8⟩
  srcpge  := ⟨8, 8⟩
  secinfo := ⟨16, 8⟩
  secs    := ⟨24, 8⟩

/-- The default of `SECINFO_LAYOUT` (R34, K4): reserved are FLAGS bits 7:6 and 63:16 and bytes 8 to 63. -/
def Config.defaultSecinfo : SecinfoLayout where
  flags    := ⟨0, 8⟩
  ptLo     := 8
  ptLen    := 8
  reserved := BitVec.allOnes 496 ++ 0x00C0#16

/-- The default of `SECS_LAYOUT` (R36, K2). -/
def Config.defaultSecs : SecsLayout where
  size               := ⟨0, 8⟩
  baseaddr           := ⟨8, 8⟩
  ssaframesize       := ⟨16, 4⟩
  miscselect         := ⟨20, 4⟩
  cetLegBitmapOffset := ⟨24, 8⟩
  cetAttributes      := ⟨32, 1⟩
  attributes         := ⟨48, 16⟩
  mrenclave          := ⟨64, 32⟩
  mrsigner           := ⟨128, 32⟩
  configid           := ⟨192, 64⟩
  isvprodid          := ⟨256, 2⟩
  isvsvn             := ⟨258, 2⟩
  configsvn          := ⟨260, 2⟩

/-- The default bits of ATTRIBUTES (R37, K5). -/
def Config.defaultAttr : AttributesLayout where
  mode64bit := 2
  cet       := 6
  kss       := 7
  xfrmLo    := 64

/-- The default reserved byte ranges of the SECS (R36, R146). -/
def Config.defaultSecsReserved : List FieldPos :=
  [⟨33, 15⟩, ⟨96, 32⟩, ⟨160, 32⟩, ⟨262, 3834⟩]

/-- The configuration that `State.reset` names (log entry 3): the spec's defaults where it gives one, and for
the OPEN parameters the values of that entry, which no statement rests on. -/
def Config.initial : Config where
  sgx1                     := true
  cetIbt                   := false
  cetSs                    := false
  miscSupported            := 0
  maxSizeNot64             := 0
  maxSize64                := 0
  attributesMask           := 0
  xfrmIllegal              := ⟨[], true⟩
  xsaveSize                := ⟨[], 0⟩
  miscRegionSize           := ⟨[], 0⟩
  gprSize                  := 0
  laBits                   := 48
  epc                      := []
  eidBits                  := 64
  nextEidReset             := 0
  pfErrorCode              := ⟨[], 0⟩
  pageinfo                 := Config.defaultPageinfo
  secinfo                  := Config.defaultSecinfo
  secs                     := Config.defaultSecs
  attr                     := Config.defaultAttr
  cetReserved              := 0xC0
  secsReserved             := Config.defaultSecsReserved
  secsReservedListed       := []
  ptSecs                   := 0
  sgxConflict              := 0
  epcPageConflictException := 1

/-- FREE VALUE (log entry 4): byte `i` of an EPC page whose content the spec leaves at any value, for the
`n`-th such page of a run (10_state.md R42, 40_ecreate.md R129). -/
opaque Config.freeEpcByte : Nat → Nat → Byte

/-- FREE VALUE (log entry 5): byte `i` of the way the MRENCLAVE field of an EPC page spells the eight words;
the spec says it is not in the source (10_state.md R39). -/
opaque Config.mrenclaveByte : HashState → Nat → Byte

end Sys2Proof
end

