-- ==== Sys2Proof/Syntax.lean ====
section
/-! DEFINITION. The instructions: one constructor for each row of spec/opcode_table.json. -/

namespace Sys2Proof

/-- `ENCLS[ECREATE]` is the one row of the table (30_encoding.md R94). Its format `IR` has no operand in the
instruction bytes (R90, R93): EAX, RBX and RCX are read by name when it runs, EAX among them as the
selector of the leaf (R92). -/
inductive Instr where
  | enclsEcreate
deriving DecidableEq, Repr

end Sys2Proof
end

