-- ==== Sys2Proof/WellFormed.lean ====
section
/-! DEFINITION. Well-formed instructions and well-formed configurations.
The one instruction has no operand, so no instruction term is ill-formed; what can be ill-formed is a
configuration, and `Config.wf` is the conjunction of the named checks below (10_state.md R33 to R37,
20_memory.md R70). The machine runs on every configuration; only statements that need a check name it. -/

namespace Sys2Proof

/-- Every term of `Instr` is well-formed: format `IR` has no field (30_encoding.md R90). -/
def Instr.wf : Instr → Bool
  | .enclsEcreate => true

/-- Two fields share no byte. -/
def FieldPos.disjoint (a b : FieldPos) : Bool :=
  decide (a.off + a.len ≤ b.off ∨ b.off + b.len ≤ a.off)

/-- Every two fields of a list share no byte. -/
def FieldPos.allDisjoint : List FieldPos → Bool
  | []      => true
  | f :: fs => fs.all f.disjoint && FieldPos.allDisjoint fs

/-- Every field of a list ends within `n` bytes. -/
def FieldPos.allWithin (n : Nat) (fs : List FieldPos) : Bool :=
  fs.all fun f => decide (f.off + f.len ≤ n)

/-- The four fields of PAGEINFO. -/
def PageinfoLayout.fields (l : PageinfoLayout) : List FieldPos :=
  [l.linaddr, l.srcpge, l.secinfo, l.secs]

/-- The thirteen named fields of the SECS. -/
def SecsLayout.fields (l : SecsLayout) : List FieldPos :=
  [l.size, l.baseaddr, l.ssaframesize, l.miscselect, l.cetLegBitmapOffset, l.cetAttributes, l.attributes,
   l.mrenclave, l.mrsigner, l.configid, l.isvprodid, l.isvsvn, l.configsvn]

/-- PAGEINFO is 32 bytes holding four 64-bit fields (R33). -/
def Config.pageinfoOk (c : Config) : Bool :=
  c.pageinfo.fields.all (fun f => f.len == 8) && FieldPos.allWithin 32 c.pageinfo.fields &&
    FieldPos.allDisjoint c.pageinfo.fields

/-- SECINFO is 64 bytes; PT lies within FLAGS (R34). -/
def Config.secinfoOk (c : Config) : Bool :=
  FieldPos.allWithin 64 [c.secinfo.flags] && decide (c.secinfo.ptLo + c.secinfo.ptLen ≤ 8 * c.secinfo.flags.len)

/-- The SECS fields have the widths the source settles (R35). -/
def Config.secsWidthsOk (c : Config) : Bool :=
  c.secs.size.len == 8 && c.secs.baseaddr.len == 8 && c.secs.ssaframesize.len == 4 &&
    c.secs.miscselect.len == 4 && c.secs.cetLegBitmapOffset.len == 8 && c.secs.attributes.len == 16 &&
    c.secs.mrenclave.len == 32

/-- The SECS fields and the reserved fields lie in the page and share no byte (R36). -/
def Config.secsPlacesOk (c : Config) : Bool :=
  FieldPos.allWithin 4096 (c.secs.fields ++ c.secsReserved) &&
    FieldPos.allDisjoint (c.secs.fields ++ c.secsReserved)

/-- The named bits of ATTRIBUTES are different bits of the 128, outside the 64 bits of XFRM (R37). -/
def Config.attrOk (c : Config) : Bool :=
  FieldPos.allWithin 128 [⟨c.attr.mode64bit, 1⟩, ⟨c.attr.cet, 1⟩, ⟨c.attr.kss, 1⟩, ⟨c.attr.xfrmLo, 64⟩] &&
    FieldPos.allDisjoint [⟨c.attr.mode64bit, 1⟩, ⟨c.attr.cet, 1⟩, ⟨c.attr.kss, 1⟩, ⟨c.attr.xfrmLo, 64⟩]

/-- `LA_BITS` names a bit of a 64-bit address (20_memory.md R70). -/
def Config.laBitsOk (c : Config) : Bool :=
  decide (1 ≤ c.laBits ∧ c.laBits ≤ 64)

/-- `CR_NEXT_EID_reset` is a value of `EID_BITS` bits (00_scope.md R8). -/
def Config.eidResetOk (c : Config) : Bool :=
  decide (c.nextEidReset < 2 ^ c.eidBits)

/-- The two constants of a VM exit are distinct (92_eei_decisions.md D29). -/
def Config.exitConstantsOk (c : Config) : Bool :=
  c.sgxConflict != c.epcPageConflictException

/-- A configuration that passes every check above. -/
def Config.wf (c : Config) : Bool :=
  c.pageinfoOk && c.secinfoOk && c.secsWidthsOk && c.secsPlacesOk && c.attrOk && c.laBitsOk &&
    c.eidResetOk && c.exitConstantsOk

end Sys2Proof
end

