-- ==== Sys2Proof/Decode.lean ====
section
/-! DEFINITION. The decoder, total on any bytes, and after it the encoder (30_encoding.md R90 to R98).
The bytes `0F 01 CF` are the spec's, marked there as general knowledge (R91, K1). -/

namespace Sys2Proof

/-- Why bytes are not an instruction of the table. -/
inductive DecodeError where
  /-- Fewer than three bytes were given. Safe: the model stops. -/
  | truncated
  /-- The first byte is one of the prefix bytes; the spec refuses any prefixed form (R96). Safe. -/
  | prefixed
  /-- The bytes are none of the table's. Safe: other instructions are out of scope (00_scope.md R5). -/
  | notInTable
deriving DecidableEq, Repr

/-- The bytes named prefixes in 30_encoding.md R96 (lock, repeat, segment override, operand size, address size,
REX, VEX). PRESUMED (log entry 6): the spec gives no byte for them. Only the name of the refusal depends on it. -/
def isPrefixByte (b : Byte) : Bool :=
  [0xF0#8, 0xF2#8, 0xF3#8, 0x2E#8, 0x36#8, 0x3E#8, 0x26#8, 0x64#8, 0x65#8, 0x66#8, 0x67#8, 0xC4#8, 0xC5#8].contains b
    || decide (0x40 ≤ b.toNat ∧ b.toNat < 0x50)

/-- `len`: the one length there is (R91). -/
def instrLen : Instr → Nat
  | .enclsEcreate => 3

/-- The instruction that the first bytes spell, and the bytes after it (R91). Neither the mode nor `EAX` is
looked at: the bytes are the same in both modes, and the leaf is selected when the instruction runs (R92). -/
def decode : List Byte → Except DecodeError (Instr × List Byte)
  | b0 :: b1 :: b2 :: rest =>
    if b0 = 0x0F#8 ∧ b1 = 0x01#8 ∧ b2 = 0xCF#8 then .ok (.enclsEcreate, rest)
    else if isPrefixByte b0 then .error .prefixed
    else .error .notInTable
  | _ => .error .truncated

/-- `ENCLS_BYTES`, in the order of increasing addresses (R91). -/
def encode : Instr → List Byte
  | .enclsEcreate => [0x0F#8, 0x01#8, 0xCF#8]

/-- The bytes of a word of the opcode table, lowest address first: byte `k` is bits `8k+7:8k` (R91, R64).
Bits above `nbits` are zero; three bytes are the longest instruction. -/
def tableWordBytes (nbits w : Nat) : List Byte :=
  let v := w % 2 ^ nbits
  [BitVec.ofNat 8 v, BitVec.ofNat 8 (v / 2 ^ 8), BitVec.ofNat 8 (v / 2 ^ 16)]

/-- The instruction the decoder reads from a word of the opcode table. -/
def decodeTableWord (nbits w : Nat) : Option Instr :=
  match decode (tableWordBytes nbits w) with
  | .ok (i, _) => some i
  | .error _   => none

end Sys2Proof
end

