-- ==== Sys2Proof/Machine/State.lean ====
section
/-! DEFINITION. The state of the machine as plain data, its reset value, and the reasons a step stops.
INVENTORY.md lists every field with the rule that names it. -/

namespace Sys2Proof.Machine

/-- The sixteen general registers (10_state.md R22). The instruction reads RAX, RBX, RCX and writes none. -/
structure Gprs where
  rax : Word64
  rbx : Word64
  rcx : Word64
  rdx : Word64
  rsi : Word64
  rdi : Word64
  rbp : Word64
  rsp : Word64
  r8  : Word64
  r9  : Word64
  r10 : Word64
  r11 : Word64
  r12 : Word64
  r13 : Word64
  r14 : Word64
  r15 : Word64
deriving DecidableEq, Repr

/-- A line of the OPEN predicate `ds_ok` (20_memory.md R62): its answer in one mode for `len` bytes at each effective
address from `first` to `last`. -/
structure SegmentLine where
  mode64 : Bool
  first  : Word64
  last   : Word64
  len    : Nat
  ok     : Bool
deriving DecidableEq, Repr

/-- The DS segment (10_state.md R26): its base, the first and the last effective address inside its limit, and the arguments
for which `ds_ok` answers otherwise than the limit does, so that any predicate can be held (20_memory.md R62, log entry 7). -/
structure DataSegment where
  base   : Word32
  first  : Word32
  last   : Word32
  listed : List SegmentLine
deriving DecidableEq, Repr

/-- The kinds of access that `translate` distinguishes (20_memory.md R63). -/
inductive AccessKind where
  | read
  | write
deriving DecidableEq, Repr

/-- One line of the oracle `translate` (20_memory.md R63): the `len` linear addresses from `la` on go to the
physical addresses from `pa` on, for the permitted kinds of access. -/
structure Mapping where
  la    : Word64
  len   : Nat
  pa    : Nat
  read  : Bool
  write : Bool
deriving DecidableEq, Repr

/-- The five VMCS fields the instruction writes (10_state.md R31, 60_exceptions.md R186). Their widths are not in
the source: natural numbers, but for the linear address. -/
structure Vmcs where
  exitReason             : Nat
  exitQualificationCode  : Nat
  exitQualificationError : Nat
  guestPhysicalAddress   : Nat
  guestLinearAddress     : Word64
deriving DecidableEq, Repr

/-- An EPCM entry (10_state.md R40). `lockHeld` is `EntryLock.held`: held by another agent (R41). -/
structure EpcmEntry where
  valid          : Bool
  pt             : Byte
  enclaveAddress : Word64
  r              : Bool
  w              : Bool
  x              : Bool
  blocked        : Bool
  pending        : Bool
  modified       : Bool
  pr             : Bool
  lockHeld       : Bool
deriving DecidableEq, Repr

/-- The EPCM entry that is not listed: an empty slot, VALID = 0 and the lock free (10_state.md R44). -/
def EpcmEntry.empty : EpcmEntry where
  valid          := false
  pt             := 0
  enclaveAddress := 0
  r              := false
  w              := false
  x              := false
  blocked        := false
  pending        := false
  modified       := false
  pr             := false
  lockHeld       := false

/-- The hidden record `SECSX[p]` (10_state.md R38), and beside it the eight words of MRENCLAVE (R39). -/
structure SecsHidden where
  initialized     : Bool
  mrUpdateCounter : Nat
  eid             : Nat
  virtChildCnt    : Nat
  enclaveContext  : Nat
  mrenclave       : HashState
deriving DecidableEq, Repr

/-- The hidden record that is not listed. No rule reads `SECSX[p]` while the entry is not valid (R42). -/
def SecsHidden.empty : SecsHidden where
  initialized     := false
  mrUpdateCounter := 0
  eid             := 0
  virtChildCnt    := 0
  enclaveContext  := 0
  mrenclave       := ⟨0, 0, 0, 0, 0, 0, 0, 0⟩

/-- Physical memory: the listed bytes, addresses strictly rising, none equal to `Memory.unlisted`. -/
abbrev Memory := List Host.Cell

/-- What a physical address that is not listed reads as. DESIGN CHOICE (log entry 8): zero. -/
def Memory.unlisted : Byte := 0

/-- The whole machine. No field has a function type. -/
structure State where
  /-- The configuration; no rule writes it (00_scope.md R8, log entry 1). -/
  cfg              : Config
  /-- General registers (10_state.md R22). -/
  gpr              : Gprs
  /-- The flags register (R24). -/
  rflags           : Word64
  /-- The instruction pointer, RIP; its low half is EIP (R25). -/
  pc               : Word64
  /-- The segment register DS (R26). -/
  ds               : DataSegment
  /-- The rest that R43 names and no rule touches: other segment registers, control registers, by number. -/
  otherRegs        : List (Nat × Word64)
  /-- `mode64` (R21). -/
  mode64           : Bool
  /-- `vmx_non_root` (R21). -/
  vmxNonRoot       : Bool
  /-- `epc_virt_ext` (R21). -/
  epcVirtExt       : Bool
  /-- `cpl` (R21). -/
  cpl              : BitVec 2
  /-- `in_enclave` (R21). -/
  inEnclave        : Bool
  /-- SGX is enabled (R45). -/
  sgxEnabled       : Bool
  /-- The processor is in system-management mode (93_implementation_defined.md U32). -/
  inSmm            : Bool
  /-- An interrupt is pending delivery at the instruction boundary (R45). -/
  interruptPending : Bool
  /-- `CR_NEXT_EID` (R29). -/
  nextEid          : Nat
  /-- The five fields of the current VMCS (R31). -/
  vmcs             : Vmcs
  /-- The oracle `translate`, its first line that covers an address deciding (20_memory.md R63). -/
  paging           : List Mapping
  /-- Physical memory, the EPC pages' bytes `EPCDATA[p]` among it (R32, R42). -/
  mem              : Memory
  /-- The EPCM by frame number, in rising order, no entry `EpcmEntry.empty` (R40). -/
  epcm             : List (Nat × EpcmEntry)
  /-- `SECSX` by frame number, in rising order, no entry `SecsHidden.empty` (R38). -/
  secsx            : List (Nat × SecsHidden)
  /-- The MODEL's own: how many free pages this run has used (log entry 4). -/
  freeCount        : Nat
deriving DecidableEq, Repr

/-- Which source structure a read was for (20_memory.md R67). -/
inductive SourceStructure where
  | pageinfo
  | secinfo
  | sourcePage
deriving DecidableEq, Repr

/-- The endings that stop the machine (60_exceptions.md R180, R192): the run ends there, with the record of rule
R190 or R186 and with `after`, the state that rule R191 gives. All three are the hardware's own endings. -/
inductive Fault where
  /-- `Fault(#GP, errorCode)` at the instruction at `pc`. Raised by `endWith` for the causes of 60_exceptions.md
  R181. Safe: the spec names it and makes it terminal. -/
  | gp (errorCode : Nat) (pc : Word64) (after : State)
  /-- `Fault(#PF, la)` at the instruction at `pc`. Raised by `endWith` for the six causes of R182; the error code
  is the OPEN parameter `pf_error_code`. Safe: the spec names it and makes it terminal. -/
  | pf (la : Word64) (errorCode : Nat) (pc : Word64) (after : State)
  /-- `VMExit` with the five VMCS fields of R186, which `after` holds too. Raised by `endWith` when the entry is
  in use in a guest with EPC virtualisation. Safe: the spec names it and makes it terminal. -/
  | vmExit (fields : Vmcs) (after : State)
deriving DecidableEq, Repr

/-- The start states to which the spec gives no meaning (00_scope.md R14 `Refuse`, 10_state.md R45). All are safe:
the model stops where the spec says that it does not know what the chip does. -/
inductive Refusal where
  /-- Raised by exec's arm of an instruction with no meaning. There is none in this model. Safe. -/
  | notModelled (mnemonic : String)
  /-- Raised by `fetch`: a byte at `pc` has no translation (R45: the bytes at `pc` are a premise). Safe. -/
  | fetchNotMapped
  /-- Raised by `fetch`: a byte at `pc` lies in the EPC, from which no instruction is fetched in scope
  (20_memory.md R78). Safe. -/
  | fetchInsideEpc
  /-- Raised by `step`: the bytes at `pc` are no instruction of the table (R45, 30_encoding.md R96). Safe. -/
  | undecodable (why : DecodeError)
  /-- Raised by ENCLS[ECREATE]'s meaning: EAX selects another leaf (30_encoding.md R95). Safe. -/
  | otherLeaf
  /-- Raised by ENCLS[ECREATE]'s meaning: `cpl` is not 0 (R45). Safe. -/
  | notPrivileged
  /-- Raised by ENCLS[ECREATE]'s meaning: inside an enclave (R45). Safe. -/
  | insideEnclave
  /-- Raised by ENCLS[ECREATE]'s meaning: SGX is not enabled or SGX1 is not set (R45). Safe. -/
  | sgxNotEnabled
  /-- Raised by ENCLS[ECREATE]'s meaning: system-management mode (93_implementation_defined.md U32). Safe. -/
  | insideSmm
  /-- Raised by ENCLS[ECREATE]'s meaning: an interrupt is pending delivery (R45). Safe. -/
  | interruptPending
  /-- Raised by ENCLS[ECREATE]'s meaning: `pc + len` overflows the mode's address width (R25). Safe. -/
  | pcOverflow
  /-- Raised by ENCLS[ECREATE]'s meaning: a source structure resolves inside the EPC (40_ecreate.md R126). Safe. -/
  | sourceInsideEpc (what : SourceStructure)
deriving DecidableEq, Repr

/-- The machine right after reset (10_state.md R44, 70_reset_and_hazards.md R220). What R44 gives: every EPCM entry
VALID = 0 and its lock free (nothing listed), `CR_NEXT_EID` the parameter `CR_NEXT_EID_reset`. Every other value is
named by log entries 3 and 9: registers PRESUMED (x86 after reset) or DESIGN CHOICE. -/
def State.reset : State where
  cfg              := Config.initial
  gpr              := ⟨0, 0, 0, 0, 0, 0, 0, 0, 0, 0, 0, 0, 0, 0, 0, 0⟩
  rflags           := 0x2
  pc               := 0xFFFFFFF0
  ds               := ⟨0, 0, 0xFFFF, []⟩
  otherRegs        := []
  mode64           := false
  vmxNonRoot       := false
  epcVirtExt       := false
  cpl              := 0
  inEnclave        := false
  sgxEnabled       := true
  inSmm            := false
  interruptPending := false
  nextEid          := Config.initial.nextEidReset
  vmcs             := ⟨0, 0, 0, 0, 0⟩
  paging           := [⟨0, 2 ^ 64, 0, true, true⟩]
  mem              := []
  epcm             := []
  secsx            := []
  freeCount        := 0

end Sys2Proof.Machine
end

