-- ==== Sys2Proof/Machine/Flags.lean ====
section
/-! DEFINITION. The flags register. -/

namespace Sys2Proof.Machine

/-- "Flags Affected: None": the flags register after ENCLS[ECREATE] is the one before it (10_state.md R24). -/
def flagsAfterEcreate (flags : Word64) : Word64 :=
  flags

end Sys2Proof.Machine
end

