-- ==== Sys2Proof/Machine/Table.lean ====
section
/-! DEFINITION. Sparse tables keyed by natural numbers in one canonical form (keys strictly rising, no entry equal to
what an unlisted key reads as), finite function tables, and byte order. Memory, the EPCM and SECSX are such tables. -/

namespace Sys2Proof.Machine

/-- The value at key `a`; `d` where nothing is listed. -/
def tableLookup {α : Type} (d : α) : List (Nat × α) → Nat → α
  | [], _ => d
  | (k, v) :: rest, a => if a < k then d else if a = k then v else tableLookup d rest a

/-- Store `v` at key `a`; storing `d` removes the entry. -/
def tableInsert {α : Type} [DecidableEq α] (d : α) : List (Nat × α) → Nat → α → List (Nat × α)
  | [], a, v => if v = d then [] else [(a, v)]
  | (k, w) :: rest, a, v =>
    if a < k then (if v = d then (k, w) :: rest else (a, v) :: (k, w) :: rest)
    else if a = k then (if v = d then rest else (a, v) :: rest)
    else (k, w) :: tableInsert d rest a v

/-- The entries of a run of values stored from key `a` on. -/
def tableRun {α : Type} [DecidableEq α] (d : α) : Nat → List α → List (Nat × α)
  | _, []      => []
  | a, v :: vs => if v = d then tableRun d (a + 1) vs else (a, v) :: tableRun d (a + 1) vs

/-- Store the values `vs` at the keys from `a` on. -/
def tableStore {α : Type} [DecidableEq α] (d : α) (t : List (Nat × α)) (a : Nat) (vs : List α) : List (Nat × α) :=
  t.filter (fun e => decide (e.1 < a)) ++ tableRun d a vs ++ t.filter (fun e => decide (a + vs.length ≤ e.1))

/-- The canonical form. -/
def tableWf {α : Type} [DecidableEq α] (d : α) : List (Nat × α) → Bool
  | []             => true
  | (k, v) :: rest => decide (v ≠ d) && rest.all (fun e => decide (k < e.1)) && tableWf d rest

/-- A finite function table at an argument. -/
def fnTableAt {α β : Type} [DecidableEq α] (f : FnTable α β) (x : α) : β :=
  match f.entries.find? (fun e => decide (e.1 = x)) with
  | some e => e.2
  | none   => f.other

/-- The number that bytes spell, the byte at the lowest address least significant (20_memory.md R64). -/
def leNat : List Byte → Nat
  | []      => 0
  | b :: bs => b.toNat + 256 * leNat bs

/-- The bytes of a field of a structure (R65: a field read is a slice of the structure's snapshot). -/
def fieldBytes (bs : List Byte) (f : FieldPos) : List Byte :=
  (bs.drop f.off).take f.len

/-- A field of a structure as the natural number its bits spell (00_scope.md R13). -/
def fieldNat (bs : List Byte) (f : FieldPos) : Nat :=
  leNat (fieldBytes bs f)

/-- Replace byte `k` of the bytes from index `i` on by `g (k - f.off)` wherever `k` lies in the field `f`. -/
def setFieldFrom (f : FieldPos) (g : Nat → Byte) : Nat → List Byte → List Byte
  | _, []      => []
  | i, b :: bs => (if f.off ≤ i ∧ i < f.off + f.len then g (i - f.off) else b) :: setFieldFrom f g (i + 1) bs

/-- Write a field of a structure, byte `j` of the field becoming `g j`. -/
def setField (bs : List Byte) (f : FieldPos) (g : Nat → Byte) : List Byte :=
  setFieldFrom f g 0 bs

end Sys2Proof.Machine
end

