-- ==== Sys2Proof/Machine/Operands.lean ====
section
/-! DEFINITION. The operand forms (30_encoding.md R93): three registers by name; effective, linear and physical
addresses; the segment, canonical and alignment checks (20_memory.md R60 to R70). -/

namespace Sys2Proof.Machine

/-- `x[EAX]`, the low half of RAX: the selector of the leaf (30_encoding.md R92). -/
def State.eax (s : State) : Word32 :=
  s.gpr.rax.setWidth 32

/-- An effective address out of a register or a PAGEINFO field: all 64 bits in 64-bit mode, the low 32 bits
outside it (20_memory.md R60). -/
def State.effective (s : State) (v : Word64) : Word64 :=
  if s.mode64 then v else (v.setWidth 32).setWidth 64

/-- `ea(RBX)`: the effective address of PAGEINFO. -/
def State.eaRbx (s : State) : Word64 :=
  s.effective s.gpr.rbx

/-- `ea(RCX)`, also called `TMP_SECS` (40_ecreate.md R120): the effective address of the destination page. -/
def State.eaRcx (s : State) : Word64 :=
  s.effective s.gpr.rcx

/-- `lin(e)`: the linear address of `DS:e` (20_memory.md R61). -/
def State.lin (s : State) (e : Word64) : Word64 :=
  if s.mode64 then e else (s.ds.base + e.setWidth 32).setWidth 64

/-- Bits `63:LA_BITS-1` are all equal (20_memory.md R70). -/
def canonical (laBits : Nat) (a : Word64) : Bool :=
  let hi := a.toNat / 2 ^ (laBits - 1)
  hi == 0 || hi == 2 ^ (64 - (laBits - 1)) - 1

/-- A line of `ds_ok` answers for these arguments. -/
def SegmentLine.covers (l : SegmentLine) (mode64 : Bool) (e : Word64) (n : Nat) : Bool :=
  l.mode64 == mode64 && l.len == n && decide (l.first.toNat ≤ e.toNat ∧ e.toNat ≤ l.last.toNat)

/-- All of the bytes `e .. e+n-1` are inside the interval of the DS segment limit. -/
def DataSegment.inLimit (d : DataSegment) (e : Word64) (n : Nat) : Bool :=
  decide (d.first.toNat ≤ e.toNat ∧ e.toNat + n ≤ d.last.toNat + 1)

/-- What the segment lists for these arguments, its first line that covers them deciding. -/
def State.dsListed (s : State) (e : Word64) (n : Nat) : Option Bool :=
  (s.ds.listed.find? fun l => l.covers s.mode64 e n).map SegmentLine.ok

/-- `ds_ok(e, n)` (20_memory.md R62). In 64-bit mode it is false where `lin(e)` is not canonical, and else what is listed;
outside it what is listed, and where nothing is, whether every byte is inside the limit. -/
def State.dsOk (s : State) (e : Word64) (n : Nat) : Bool :=
  if s.mode64 then canonical s.cfg.laBits (s.lin e) && (s.dsListed e n).getD true
  else (s.dsListed e n).getD (s.ds.inLimit e n)

/-- `lin(e)` is a multiple of `a` (20_memory.md R66). -/
def State.aligned (s : State) (e : Word64) (a : Nat) : Bool :=
  (s.lin e).toNat % a == 0

/-- The check of `check_addr(e, n, a)` (40_ecreate.md R110). -/
def State.addrOk (s : State) (e : Word64) (n a : Nat) : Bool :=
  s.dsOk e n && s.aligned e a

/-- A line of the oracle answers for address `la` and this kind of access. -/
def Mapping.answers (m : Mapping) (la : Word64) (kind : AccessKind) : Bool :=
  decide ((la - m.la).toNat < m.len) &&
    match kind with
    | .read  => m.read
    | .write => m.write

/-- `translate(la, kind)`: the physical address, or none for a page fault (20_memory.md R63). -/
def State.translate (s : State) (la : Word64) (kind : AccessKind) : Option Nat :=
  match s.paging.find? (fun m => m.answers la kind) with
  | some m => some (m.pa + (la - m.la).toNat)
  | none   => none

/-- The page frame of a physical address (00_scope.md R6). -/
def frameOf (pa : Nat) : Nat :=
  pa / 4096

/-- The frame is in the set `EPC` (20_memory.md R68). -/
def frameInEpc (c : Config) (p : Nat) : Bool :=
  c.epc.any fun r => decide (r.first ≤ p ∧ p < r.first + r.count)

/-- The instruction pointer: RIP in 64-bit mode, EIP outside it (10_state.md R25). -/
def State.instrPointer (s : State) : Word64 :=
  if s.mode64 then s.pc else (s.pc.setWidth 32).setWidth 64

/-- `pc + len` overflows the address width of the mode (10_state.md R25). -/
def State.pcOverflows (s : State) (len : Nat) : Bool :=
  decide ((if s.mode64 then 2 ^ 64 else 2 ^ 32) ≤ s.instrPointer.toNat + len)

end Sys2Proof.Machine
end

