-- ==== Sys2Proof/Machine/Ops.lean ====
section
/-! DEFINITION. The named operations over memory, the EPCM, SECSX and CR_NEXT_EID; the one operation that ends an
instruction abnormally, and the resumption after it. -/

namespace Sys2Proof.Machine

/-! ### Memory -/

/-- One byte of physical memory. -/
def Memory.read (m : Memory) (a : Nat) : Byte :=
  tableLookup Memory.unlisted m a

/-- The `n` bytes from physical address `a` on, in address order. -/
def Memory.readBytes (m : Memory) (a : Nat) : Nat → List Byte
  | 0     => []
  | n + 1 => m.read a :: Memory.readBytes m (a + 1) n

/-- Store bytes from physical address `a` on, in address order. -/
def Memory.writeBytes (m : Memory) (a : Nat) (bs : List Byte) : Memory :=
  tableStore Memory.unlisted m a bs

/-- The canonical form of memory. -/
def Memory.wf (m : Memory) : Bool :=
  tableWf Memory.unlisted m

/-- `EPCDATA[p]`: the 4096 bytes of EPC page `p` (10_state.md R42). -/
def State.epcData (s : State) (p : Nat) : List Byte :=
  s.mem.readBytes (p * 4096) 4096

/-- Write bytes to EPC page `p` from its start on (the `MemWrite` of 40_ecreate.md R128, which cannot fault). -/
def State.setEpcData (s : State) (p : Nat) (bs : List Byte) : State :=
  { s with mem := s.mem.writeBytes (p * 4096) bs }

/-- Leave EPC page `p` at any value: 4096 free bytes (10_state.md R42, log entry 4). -/
def State.forgetEpcData (s : State) (p : Nat) : State :=
  { s with
    mem := s.mem.writeBytes (p * 4096) ((List.range 4096).map (Config.freeEpcByte s.freeCount))
    freeCount := s.freeCount + 1 }

/-! ### The EPCM, SECSX, CR_NEXT_EID -/

/-- `EPCM[p]` (10_state.md R40). -/
def State.epcmAt (s : State) (p : Nat) : EpcmEntry :=
  tableLookup EpcmEntry.empty s.epcm p

/-- `EPCM[p] <- e`. -/
def State.setEpcm (s : State) (p : Nat) (e : EpcmEntry) : State :=
  { s with epcm := tableInsert EpcmEntry.empty s.epcm p e }

/-- `SECSX[p]` (10_state.md R38). -/
def State.secsxAt (s : State) (p : Nat) : SecsHidden :=
  tableLookup SecsHidden.empty s.secsx p

/-- `SECSX[p] <- x`. -/
def State.setSecsx (s : State) (p : Nat) (x : SecsHidden) : State :=
  { s with secsx := tableInsert SecsHidden.empty s.secsx p x }

/-- `locked_xadd(CR_NEXT_EID, k)`: the old value, and the counter advanced modulo `2^EID_BITS`
(40_ecreate.md R156). -/
def State.lockedXaddNextEid (s : State) (k : Nat) : Nat × State :=
  (s.nextEid, { s with nextEid := (s.nextEid + k) % 2 ^ s.cfg.eidBits })

/-- `pc <- pc + len` (10_state.md R25). Outside 64-bit mode the sum stays below 2^32 (`pcOverflows`), so the upper
half is not touched. -/
def State.advance (s : State) (len : Nat) : State :=
  { s with pc := s.pc + BitVec.ofNat 64 len }

/-- Write the flags register. -/
def State.setFlags (s : State) (flags : Word64) : State :=
  { s with rflags := flags }

/-- Write the five VMCS fields. -/
def State.setVmcs (s : State) (v : Vmcs) : State :=
  { s with vmcs := v }

/-! ### Ending an instruction abnormally -/

/-- How ENCLS[ECREATE] can end other than in `Complete` (00_scope.md R14). -/
inductive Ending where
  /-- `raise GP(0)`. -/
  | gp
  /-- `raise PF(e)`, at its site, with `la = lin(e)`. -/
  | pf (site : PfSite) (la : Word64)
  /-- `vmexit(...)` for the entry-in-use conflict: the physical and the linear address of the page. -/
  | vmExit (guestPhysical : Nat) (guestLinear : Word64)
  /-- `Refuse`. -/
  | refuse (r : Refusal)
deriving DecidableEq, Repr

/-- The five values of 60_exceptions.md R186. -/
def conflictFields (c : Config) (guestPhysical : Nat) (guestLinear : Word64) : Vmcs where
  exitReason             := c.sgxConflict
  exitQualificationCode  := c.epcPageConflictException
  exitQualificationError := 0
  guestPhysicalAddress   := guestPhysical
  guestLinearAddress     := guestLinear

/-- Taking an exception, the one operation for all of them: the record of 60_exceptions.md R190 (R186 for the VM
exit) with the state `s` that the instruction leaves (R191). The spec saves the record nowhere and gives no
vector table: the ending is terminal (R192). `pc` is unchanged, the address of the instruction (10_state.md R25). -/
def endWith (s : State) : Ending → Host.Outcome State Fault Refusal
  | .gp          => .fault (.gp 0 s.instrPointer s)
  | .pf site la  => .fault (.pf la (fnTableAt s.cfg.pfErrorCode site) s.instrPointer s)
  | .vmExit p la => .fault (.vmExit (conflictFields s.cfg p la) (s.setVmcs (conflictFields s.cfg p la)))
  | .refuse r    => .refused r

/-- Resuming after an ending: the spec has no return instruction; software that repairs the cause and re-executes
at the saved `pc` starts from the state the ending left (60_exceptions.md R193). -/
def resumeState : Fault → State
  | .gp _ _ after   => after
  | .pf _ _ _ after => after
  | .vmExit _ after => after

/-! ### Checked reads -/

/-- `raise` unless the condition holds. -/
def ensure (ok : Bool) (e : Ending) : Except Ending Unit :=
  if ok then .ok () else .error e

/-- `MemRead(e, n)` by a "Non Enclave" access (20_memory.md R65, R69): the segment check, then the translation, then
the refusal of a structure that resolves inside the EPC (40_ecreate.md R126), then the bytes, read once. No operand is
longer than a page, so its first and its last byte name every frame it touches. -/
def State.memReadNonEnclave (s : State) (site : PfSite) (what : SourceStructure) (e : Word64) (n : Nat) :
    Except Ending (List Byte) :=
  if s.dsOk e n then
    match s.translate (s.lin e) .read with
    | none    => .error (.pf site (s.lin e))
    | some pa =>
      if frameInEpc s.cfg (frameOf pa) || frameInEpc s.cfg (frameOf (pa + n - 1)) then
        .error (.refuse (.sourceInsideEpc what))
      else .ok (s.mem.readBytes pa n)
  else .error .gp

/-- `EpcPage(e)` (20_memory.md R68, 40_ecreate.md R113): the physical address that `DS:e` has for writing, if its
frame is in the EPC. -/
def State.epcPage (s : State) (e : Word64) : Except Ending Nat :=
  match s.translate (s.lin e) .write with
  | none    => .error (.pf .destPaging (s.lin e))
  | some pa =>
    if frameInEpc s.cfg (frameOf pa) then .ok pa else .error (.pf .destOutsideEpc (s.lin e))

end Sys2Proof.Machine
end

