-- ==== Sys2Proof/Machine/Secs.lean ====
section
/-! DEFINITION. The SECS that software prepared, read out of the copied page, and the checks made on the copy
(40_ecreate.md R130 to R147), one definition for each rule. Each is true when its rule raises `#GP(0)`. -/

namespace Sys2Proof.Machine

/-- The SECS fields the checks and the measurement read (10_state.md R35). Fields whose width the source does not
settle are natural numbers. -/
structure Secs where
  size               : Word64
  baseaddr           : Word64
  ssaframesize       : Word32
  miscselect         : Word32
  cetLegBitmapOffset : Word64
  cetAttributes      : Nat
  attributes         : Word128
  configid           : Nat
  configsvn          : Nat
deriving DecidableEq, Repr

/-- Field `F` of the page under `SECS_LAYOUT` (10_state.md R36). -/
def parseSecs (c : Config) (page : List Byte) : Secs where
  size               := BitVec.ofNat 64 (fieldNat page c.secs.size)
  baseaddr           := BitVec.ofNat 64 (fieldNat page c.secs.baseaddr)
  ssaframesize       := BitVec.ofNat 32 (fieldNat page c.secs.ssaframesize)
  miscselect         := BitVec.ofNat 32 (fieldNat page c.secs.miscselect)
  cetLegBitmapOffset := BitVec.ofNat 64 (fieldNat page c.secs.cetLegBitmapOffset)
  cetAttributes      := fieldNat page c.secs.cetAttributes
  attributes         := BitVec.ofNat 128 (fieldNat page c.secs.attributes)
  configid           := fieldNat page c.secs.configid
  configsvn          := fieldNat page c.secs.configsvn

/-- `ATTRIBUTES.MODE64BIT = 1` (R37). -/
def secsMode64 (c : Config) (v : Secs) : Bool :=
  v.attributes.getLsbD c.attr.mode64bit

/-- `ATTRIBUTES.CET = 1` (R37). -/
def secsCet (c : Config) (v : Secs) : Bool :=
  v.attributes.getLsbD c.attr.cet

/-- `ATTRIBUTES.KSS = 1` (R37). -/
def secsKss (c : Config) (v : Secs) : Bool :=
  v.attributes.getLsbD c.attr.kss

/-- `ATTRIBUTES.XFRM` (R37). -/
def secsXfrm (c : Config) (v : Secs) : Word64 :=
  v.attributes.extractLsb' c.attr.xfrmLo 64

/-- R130: the low two bits of XFRM are not both set. -/
def xfrmLowBitsBad (c : Config) (v : Secs) : Bool :=
  secsXfrm c v &&& 3#64 != 3#64

/-- R131: XFRM is illegal. -/
def xfrmIllegalBad (c : Config) (v : Secs) : Bool :=
  fnTableAt c.xfrmIllegal (secsXfrm c v)

/-- R132: CET fields set in an enclave that does not use CET. -/
def cetDisabledBad (c : Config) (v : Secs) : Bool :=
  !secsCet c v && (v.cetAttributes != 0 || v.cetLegBitmapOffset != 0#64)

/-- R133: CET fields set for a half of CET that the processor does not support. -/
def cetUnsupportedBad (c : Config) (v : Secs) : Bool :=
  (!c.cetIbt && (v.cetLegBitmapOffset != 0#64 || v.cetAttributes / 4 % 16 != 0)) ||
    (!c.cetSs && v.cetAttributes % 4 != 0)

/-- A 64-bit address is out of range for the enclave: not canonical in a 64-bit enclave, above 2^32 - 1 in another
one (the common part of R134 and R141). -/
def outOfEnclaveRange (laBits : Nat) (mode64bit : Bool) (a : Word64) : Bool :=
  if mode64bit then !canonical laBits a else a.toNat / 2 ^ 32 != 0

/-- R134: the legacy bitmap lies outside the range; the sum is taken modulo 2^64. -/
def cetBitmapPlaceBad (c : Config) (v : Secs) : Bool :=
  outOfEnclaveRange c.laBits (secsMode64 c v) (v.baseaddr + v.cetLegBitmapOffset)

/-- R135: a reserved bit of CET_ATTRIBUTES, or a bitmap offset that is not page aligned. -/
def cetReservedBad (c : Config) (v : Secs) : Bool :=
  v.cetAttributes &&& c.cetReserved != 0 || v.cetLegBitmapOffset.toNat % 4096 != 0

/-- R136: the CET condition as a whole. -/
def cetBad (c : Config) (v : Secs) : Bool :=
  cetDisabledBad c v || cetUnsupportedBad c v || cetBitmapPlaceBad c v || cetReservedBad c v

/-- R138: a selected MISC option is not supported (90_conflicts.md C2: the comment's reading). -/
def miscselectBad (c : Config) (v : Secs) : Bool :=
  v.miscselect &&& ~~~c.miscSupported != 0#32

/-- R139: `TMP_XSIZE`, a natural number of bytes. -/
def ssaBytesNeeded (c : Config) (v : Secs) : Nat :=
  fnTableAt c.xsaveSize (secsXfrm c v) + c.gprSize + fnTableAt c.miscRegionSize v.miscselect

/-- R140: the SSA frame is too small; the product is taken over the natural numbers. -/
def ssaframesizeBad (c : Config) (v : Secs) : Bool :=
  decide (v.ssaframesize.toNat * 4096 < ssaBytesNeeded c v)

/-- R141: BASEADDR out of range. -/
def baseaddrRangeBad (c : Config) (v : Secs) : Bool :=
  outOfEnclaveRange c.laBits (secsMode64 c v) v.baseaddr

/-- R143: SIZE at or above the bound; the power is taken over the natural numbers. -/
def sizeBoundBad (c : Config) (v : Secs) : Bool :=
  decide (2 ^ (if secsMode64 c v then c.maxSize64.toNat else c.maxSizeNot64.toNat) ≤ v.size.toNat)

/-- `popcnt`: the number of set bits (00_scope.md R11). -/
def popcnt (v : Word64) : Nat :=
  (List.range 64).countP fun i => v.getLsbD i

/-- R144: SIZE below 8192 or not a power of two, or BASEADDR not aligned on SIZE. -/
def sizeShapeBad (v : Secs) : Bool :=
  decide (v.size.toNat < 8192) || decide (1 < popcnt v.size) || v.baseaddr &&& (v.size - 1#64) != 0#64

/-- R145: an attribute that is not supported. -/
def attributesBad (c : Config) (v : Secs) : Bool :=
  v.attributes &&& ~~~c.attributesMask != 0#128

/-- The page with the three fields that the instruction sets made zero: no check looks at them (R146). -/
def blankOverwritten (c : Config) (page : List Byte) : List Byte :=
  [c.secs.mrenclave, c.secs.isvsvn, c.secs.isvprodid].foldl (fun p f => setField p f fun _ => 0#8) page

/-- `secs_reserved_zero` (R146, an OPEN predicate): what is listed for the page, and where nothing is, whether every byte of
the reserved fields is zero. -/
def secsReservedZero (c : Config) (page : List Byte) : Bool :=
  match c.secsReservedListed.find? fun e => decide (e.1 = blankOverwritten c page) with
  | some e => e.2
  | none   => c.secsReserved.all fun f => (fieldBytes page f).all (· == 0#8)

/-- R146: `secs_reserved_zero` is false. -/
def secsReservedBad (c : Config) (page : List Byte) : Bool :=
  !secsReservedZero c page

/-- R147: CONFIGID or CONFIGSVN set without KSS. -/
def configIdBad (c : Config) (v : Secs) : Bool :=
  (v.configid != 0 || v.configsvn != 0) && !secsKss c v

/-- R129: the checks on the copy as one disjunction; all raise `#GP(0)` and have no other effect. -/
def secsRejected (c : Config) (page : List Byte) : Bool :=
  let v := parseSecs c page
  xfrmLowBitsBad c v || xfrmIllegalBad c v || cetBad c v || miscselectBad c v || ssaframesizeBad c v ||
    baseaddrRangeBad c v || sizeBoundBad c v || sizeShapeBad v || attributesBad c v || secsReservedBad c page ||
    configIdBad c v

end Sys2Proof.Machine
end

