-- ==== Sys2Proof/Machine/Sha256.lean ====
section
/-! DEFINITION. SHA-256 without padding and finalisation (40_ecreate.md R155: FIPS 180-4, marked there as general
knowledge, K8). -/

namespace Sys2Proof.Machine

/-- `SHA256INITIALIZE`: the eight initial words. -/
def sha256Init : HashState :=
  ⟨0x6a09e667, 0xbb67ae85, 0x3c6ef372, 0xa54ff53a, 0x510e527f, 0x9b05688c, 0x1f83d9ab, 0x5be0cd19⟩

/-- The constants `K[0..63]`, row by row. -/
def sha256K : List Word32 :=
  [0x428a2f98, 0x71374491, 0xb5c0fbcf, 0xe9b5dba5, 0x3956c25b, 0x59f111f1, 0x923f82a4, 0xab1c5ed5] ++
  [0xd807aa98, 0x12835b01, 0x243185be, 0x550c7dc3, 0x72be5d74, 0x80deb1fe, 0x9bdc06a7, 0xc19bf174] ++
  [0xe49b69c1, 0xefbe4786, 0x0fc19dc6, 0x240ca1cc, 0x2de92c6f, 0x4a7484aa, 0x5cb0a9dc, 0x76f988da] ++
  [0x983e5152, 0xa831c66d, 0xb00327c8, 0xbf597fc7, 0xc6e00bf3, 0xd5a79147, 0x06ca6351, 0x14292967] ++
  [0x27b70a85, 0x2e1b2138, 0x4d2c6dfc, 0x53380d13, 0x650a7354, 0x766a0abb, 0x81c2c92e, 0x92722c85] ++
  [0xa2bfe8a1, 0xa81a664b, 0xc24b8b70, 0xc76c51a3, 0xd192e819, 0xd6990624, 0xf40e3585, 0x106aa070] ++
  [0x19a4c116, 0x1e376c08, 0x2748774c, 0x34b0bcb5, 0x391c0cb3, 0x4ed8aa4a, 0x5b9cca4f, 0x682e6ff3] ++
  [0x748f82ee, 0x78a5636f, 0x84c87814, 0x8cc70208, 0x90befffa, 0xa4506ceb, 0xbef9a3f7, 0xc67178f2]

/-- A 32-bit rotate right. -/
def rotr (x : Word32) (n : Nat) : Word32 :=
  (x >>> n) ||| (x <<< (32 - n))

/-- `Σ0`. -/
def bigSigma0 (x : Word32) : Word32 := rotr x 2 ^^^ rotr x 13 ^^^ rotr x 22

/-- `Σ1`. -/
def bigSigma1 (x : Word32) : Word32 := rotr x 6 ^^^ rotr x 11 ^^^ rotr x 25

/-- `σ0`. -/
def smallSigma0 (x : Word32) : Word32 := rotr x 7 ^^^ rotr x 18 ^^^ (x >>> 3)

/-- `σ1`. -/
def smallSigma1 (x : Word32) : Word32 := rotr x 17 ^^^ rotr x 19 ^^^ (x >>> 10)

/-- `Ch`. -/
def shaCh (x y z : Word32) : Word32 := (x &&& y) ^^^ (~~~x &&& z)

/-- `Maj`. -/
def shaMaj (x y z : Word32) : Word32 := (x &&& y) ^^^ (x &&& z) ^^^ (y &&& z)

/-- The words `W[0..15]` of a block: four bytes each, the first most significant. -/
def blockWords : List Byte → List Word32
  | b0 :: b1 :: b2 :: b3 :: rest => (b0 ++ b1 ++ b2 ++ b3) :: blockWords rest
  | _ => []

/-- `W[t]` from the words before it, the latest first. -/
def nextWord (ws : List Word32) : Word32 :=
  smallSigma1 (ws.getD 1 0) + ws.getD 6 0 + smallSigma0 (ws.getD 14 0) + ws.getD 15 0

/-- Append `n` further words to a schedule held latest first. -/
def extendSchedule : Nat → List Word32 → List Word32
  | 0, ws     => ws
  | n + 1, ws => extendSchedule n (nextWord ws :: ws)

/-- One of the 64 rounds, with its `K[t]` and `W[t]`. -/
def shaRound (v : HashState) (kw : Word32 × Word32) : HashState :=
  let t1 := v.h7 + bigSigma1 v.h4 + shaCh v.h4 v.h5 v.h6 + kw.1 + kw.2
  let t2 := bigSigma0 v.h0 + shaMaj v.h0 v.h1 v.h2
  ⟨t1 + t2, v.h0, v.h1, v.h2, v.h3 + t1, v.h4, v.h5, v.h6⟩

/-- `sha256_block(H, m)` for a block of 64 bytes. -/
def sha256Block (h : HashState) (m : List Byte) : HashState :=
  let w := (extendSchedule 48 (blockWords m).reverse).reverse
  let v := (sha256K.zip w).foldl shaRound h
  ⟨h.h0 + v.h0, h.h1 + v.h1, h.h2 + v.h2, h.h3 + v.h3, h.h4 + v.h4, h.h5 + v.h5, h.h6 + v.h6, h.h7 + v.h7⟩

end Sys2Proof.Machine
end

