-- ==== Sys2Proof/Machine/Ecreate.lean ====
section
/-! DEFINITION. The meaning of ENCLS[ECREATE], step by step in the order of 40_ecreate.md R110. -/

namespace Sys2Proof.Machine

/-! ### The premises -/

/-- The start-state premises of 10_state.md R45 (the bytes at `pc` are checked by `step`), with system-management
mode (93_implementation_defined.md U32) and the overflow of `pc` (R25): the refusal of the first that fails. -/
def premiseRefusal (s : State) : Option Refusal :=
  if s.eax ≠ 0#32 then some .otherLeaf
  else if s.cpl ≠ 0#2 then some .notPrivileged
  else if s.inEnclave then some .insideEnclave
  else if !(s.sgxEnabled && s.cfg.sgx1) then some .sgxNotEnabled
  else if s.inSmm then some .insideSmm
  else if s.interruptPending then some .interruptPending
  else if s.pcOverflows (instrLen .enclsEcreate) then some .pcOverflow
  else none

/-! ### Checks made before the copy -/

/-- `TMP_SRCPGE` (R115). -/
def tmpSrcpge (s : State) (pageinfo : List Byte) : Word64 :=
  s.effective (BitVec.ofNat 64 (fieldNat pageinfo s.cfg.pageinfo.srcpge))

/-- `TMP_SECINFO` (R115). -/
def tmpSecinfo (s : State) (pageinfo : List Byte) : Word64 :=
  s.effective (BitVec.ofNat 64 (fieldNat pageinfo s.cfg.pageinfo.secinfo))

/-- R116: the source page and the SECINFO are addressable and aligned. -/
def sourceAddrsOk (s : State) (pageinfo : List Byte) : Bool :=
  s.addrOk (tmpSrcpge s pageinfo) 4096 4096 && s.addrOk (tmpSecinfo s pageinfo) 64 64

/-- R117: the unused PAGEINFO fields are zero, each over its full width. -/
def unusedFieldsZero (c : Config) (pageinfo : List Byte) : Bool :=
  fieldNat pageinfo c.pageinfo.linaddr == 0 && fieldNat pageinfo c.pageinfo.secs == 0

/-- R119: no reserved bit of SECINFO is set and `FLAGS.PT = PT_SECS`. -/
def secinfoOk (c : Config) (secinfo : List Byte) : Bool :=
  leNat secinfo &&& c.secinfo.reserved.toNat == 0 &&
    fieldNat secinfo c.secinfo.flags / 2 ^ c.secinfo.ptLo % 2 ^ c.secinfo.ptLen == c.ptSecs.toNat

/-- R121: what happens when the EPCM entry is in use. The second test of R122 cannot fire and is no step. -/
def entryInUseEnding (s : State) (pa : Nat) : Ending :=
  if s.vmxNonRoot && s.epcVirtExt then .vmExit pa (s.lin s.eaRcx) else .gp

/-- What the checks before the copy find: the destination page's physical address and the bytes of the source page,
read once (20_memory.md R71). -/
structure CopyPlan where
  pa   : Nat
  secs : List Byte
deriving DecidableEq, Repr

/-- `p`, the destination's EPC page frame (R113). -/
def planFrame (t : CopyPlan) : Nat :=
  frameOf t.pa

/-- The steps R111 to R123 in the order of R124, and the read of R128. The lock is taken between R121 and R123; in the
model of one agent that changes nothing (R127). -/
def ecreateChecks (s : State) : Except Ending CopyPlan := do
  ensure (s.addrOk s.eaRbx 32 32) .gp                                            -- R111
  ensure (s.addrOk s.eaRcx 4096 4096) .gp                                        -- R112
  let pa ← s.epcPage s.eaRcx                                                     -- R113
  let pageinfo ← s.memReadNonEnclave .pageinfoRead .pageinfo s.eaRbx 32          -- R114
  ensure (sourceAddrsOk s pageinfo) .gp                                          -- R115, R116
  ensure (unusedFieldsZero s.cfg pageinfo) .gp                                   -- R117
  let secinfo ← s.memReadNonEnclave .secinfoRead .secinfo (tmpSecinfo s pageinfo) 64   -- R118
  ensure (secinfoOk s.cfg secinfo) .gp                                           -- R119
  ensure (!(s.epcmAt (frameOf pa)).lockHeld) (entryInUseEnding s pa)             -- R121
  ensure (!(s.epcmAt (frameOf pa)).valid) (.pf .destValid (s.lin s.eaRcx))       -- R123
  let secs ← s.memReadNonEnclave .sourceRead .sourcePage (tmpSrcpge s pageinfo) 4096   -- R128
  return ⟨pa, secs⟩

/-! ### Commit -/

/-- `n` bytes of a value, the least significant first (20_memory.md R64). -/
def leBytes : Nat → Nat → List Byte
  | 0, _     => []
  | n + 1, v => BitVec.ofNat 8 v :: leBytes n (v / 256)

/-- The 64 bytes of `TMPUPDATEFIELD` (R153): "ECREATE" and a zero byte, SSAFRAMESIZE, SIZE, the bitmap offset if
`CPUID_CET_IBT` (else zero), zeros. The last clearing is read as `[511:224]` (90_conflicts.md C1). -/
def measurementBlock (c : Config) (v : Secs) : List Byte :=
  leBytes 8 0x0045544145524345 ++ leBytes 4 v.ssaframesize.toNat ++ leBytes 8 v.size.toNat ++
    leBytes 8 (if c.cetIbt then v.cetLegBitmapOffset.toNat else 0) ++ List.replicate 36 0#8

/-- MRENCLAVE when the instruction completes (R150, R153). -/
def ecreateMeasurement (c : Config) (page : List Byte) : HashState :=
  sha256Block sha256Init (measurementBlock c (parseSecs c page))

/-- The copy with the three fields the instruction sets, in the order of R150, R151, R153. -/
def committedPage (c : Config) (page : List Byte) : List Byte :=
  let p1 := setField page c.secs.mrenclave (Config.mrenclaveByte sha256Init)
  let p2 := setField p1 c.secs.isvsvn fun _ => 0#8
  let p3 := setField p2 c.secs.isvprodid fun _ => 0#8
  setField p3 c.secs.mrenclave (Config.mrenclaveByte (ecreateMeasurement c page))

/-- The hidden record of the new SECS (R149, R152, R154, R156, R157, R158), with MRENCLAVE's words (R39). -/
def createdHidden (c : Config) (t : CopyPlan) (eid : Nat) : SecsHidden where
  initialized     := false
  mrUpdateCounter := 0 + 1
  eid             := eid
  virtChildCnt    := 0
  enclaveContext  := t.pa
  mrenclave       := ecreateMeasurement c t.secs

/-- The EPCM entry of the new SECS (R159, R160, R161), its lock given back (R162). -/
def createdEntry (c : Config) : EpcmEntry where
  valid          := true
  pt             := c.ptSecs
  enclaveAddress := 0
  r              := false
  w              := false
  x              := false
  blocked        := false
  pending        := false
  modified       := false
  pr             := false
  lockHeld       := false

/-- The commit (R148 to R162): none of its steps can fault. -/
def ecreateCommit (s : State) (t : CopyPlan) : State :=
  let (eid, s1) := (s.setEpcData (planFrame t) (committedPage s.cfg t.secs)).lockedXaddNextEid 1
  let s2 := s1.setSecsx (planFrame t) (createdHidden s.cfg t eid)
  let s3 := s2.setEpcm (planFrame t) (createdEntry s.cfg)
  (s3.setFlags (flagsAfterEcreate s3.rflags)).advance (instrLen .enclsEcreate)

/-! ### The instruction -/

/-- What ENCLS[ECREATE] does after the premises: the checks before the copy, whose ending leaves the start state
(R125); the copy and the checks on it, whose `#GP(0)` leaves the destination page at any value (R129); the commit. -/
def ecreateBody (s : State) : Host.Outcome State Fault Refusal :=
  match ecreateChecks s with
  | .error e => endWith s e
  | .ok t    =>
    if secsRejected s.cfg t.secs then endWith (s.forgetEpcData (planFrame t)) .gp
    else .next (ecreateCommit s t)

/-- `ENCLS[ECREATE]` (40_ecreate.md R110). -/
def execEnclsEcreate (s : State) : Host.Outcome State Fault Refusal :=
  match premiseRefusal s with
  | some r => .refused r
  | none   => ecreateBody s

end Sys2Proof.Machine
end

