-- ==== Sys2Proof/Machine/Fetch.lean ====
section
/-! DEFINITION. Fetching an instruction's bytes, and placing an instruction where it is fetched.
Instructions and data share the linear address space (10_state.md R32), so a byte is fetched through `translate`, as a
read (log entry 10). -/

namespace Sys2Proof.Machine

/-- The physical address of the instruction byte `k` bytes after `pc`, outside the EPC (10_state.md R45,
20_memory.md R78). -/
def State.fetchAddr (s : State) (k : Nat) : Except Refusal Nat :=
  match s.translate (s.instrPointer + BitVec.ofNat 64 k) .read with
  | none    => .error .fetchNotMapped
  | some pa => if frameInEpc s.cfg (frameOf pa) then .error .fetchInsideEpc else .ok pa

/-- The three bytes at `pc`, in address order (30_encoding.md R91). -/
def State.fetch (s : State) : Except Refusal (List Byte) := do
  let a0 ← s.fetchAddr 0
  let a1 ← s.fetchAddr 1
  let a2 ← s.fetchAddr 2
  return [s.mem.read a0, s.mem.read a1, s.mem.read a2]

/-- The three instruction bytes already have consecutive physical addresses from `pa` on, outside the EPC. -/
def State.fetchesFrom (s : State) (pa : Nat) : Bool :=
  match s.fetchAddr 0, s.fetchAddr 1, s.fetchAddr 2 with
  | .ok a0, .ok a1, .ok a2 => a0 == pa && a1 == pa + 1 && a2 == pa + 2
  | _, _, _                => false

/-- A physical address above every frame of the EPC. -/
def aboveEpc (c : Config) : Nat :=
  (c.epc.foldl (fun m r => max m (r.first + r.count)) 0) * 4096

/-- Where an instruction is to be stored to be fetched next: the physical address that `pc` already has, if its three
bytes are fetched from there, else an address outside the EPC. -/
def State.fetchPlace (s : State) : Nat :=
  match s.fetchAddr 0 with
  | .ok pa   => if s.fetchesFrom pa then pa else aboveEpc s.cfg
  | .error _ => aboveEpc s.cfg

/-- The three bytes stored where `step` fetches next. A line is put before the oracle's only if `pc` is not mapped to
consecutive addresses outside the EPC already. -/
def State.placeCode (s : State) (bs : List Byte) : State :=
  { s with
    mem    := s.mem.writeBytes s.fetchPlace bs
    paging := if s.fetchesFrom s.fetchPlace then s.paging
              else ⟨s.instrPointer, 3, s.fetchPlace, true, false⟩ :: s.paging }

end Sys2Proof.Machine
end

