-- ==== Sys2Proof/Machine/Step.lean ====
section
/-! DEFINITION. One step: fetch, decode, run. -/

namespace Sys2Proof.Machine

/-- One step (00_scope.md R14): the bytes at `pc` are fetched and decoded and the instruction runs. Bytes that cannot
be fetched or are no instruction of the table are a start state outside the premises: `Refuse` (10_state.md R45). -/
def step (s : State) : Host.Outcome State Fault Refusal :=
  match s.fetch with
  | .error r => .refused r
  | .ok bs   =>
    match decode bs with
    | .error why => .refused (.undecodable why)
    | .ok (i, _) => exec i s

/-- `s` with a word of the opcode table stored where `step` fetches its next instruction. -/
def State.withFetchWord (s : State) (nbits w : Nat) : State :=
  s.placeCode (tableWordBytes nbits w)

end Sys2Proof.Machine
end

