-- ==== Sys2Proof/Safety.lean ====
section
/-! DEFINITION. The terms claims are stated in: the state an outcome leaves, the conditions on a start state under which
ENCLS[ECREATE] gets to each of its steps, the conditions on a SECS under which it completes, and the invariants. Every
condition is on the state and its operands alone; none calls `exec`, `ecreateChecks` or `secsRejected`. -/

namespace Sys2Proof.Machine

/-! ### Outcomes -/

/-- The state an outcome leaves (60_exceptions.md R191): the next state, or the state after a fault or a VM exit. A
refusal is the spec's own outcome and leaves none (00_scope.md R14). -/
def endState : Host.Outcome State Fault Refusal → Option State
  | .next t    => some t
  | .fault f   => some (resumeState f)
  | .refused _ => none

/-- A fault with its record, and `g` applied to the state it leaves. -/
def mapFault (g : State → State) : Fault → Fault
  | .gp code pc after    => .gp code pc (g after)
  | .pf la code pc after => .pf la code pc (g after)
  | .vmExit fields after => .vmExit fields (g after)

/-- An outcome with its kind and its record, and `g` applied to the state it carries: what "the same outcome but for a part of
the state" is said with. -/
def mapOutcome (g : State → State) : Host.Outcome State Fault Refusal → Host.Outcome State Fault Refusal
  | .next t    => .next (g t)
  | .fault f   => .fault (mapFault g f)
  | .refused r => .refused r

/-! ### How far an execution gets -/

/-- The start-state premises (10_state.md R45; 93_implementation_defined.md U32 for SMM; R25 for `pc`), less the bytes
at `pc`, which `step` checks. -/
structure Premises (s : State) : Prop where
  leaf         : s.gpr.rax.toNat % 2 ^ 32 = 0
  privileged   : s.cpl = 0#2
  outside      : s.inEnclave = false
  enabled      : s.sgxEnabled = true
  sgx1         : s.cfg.sgx1 = true
  notSmm       : s.inSmm = false
  noInterrupt  : s.interruptPending = false
  pcFits       : s.instrPointer.toNat + 3 < (if s.mode64 then 2 ^ 64 else 2 ^ 32)

/-- The premises hold and RBX and RCX pass R111 and R112. -/
structure ReachesDest (s : State) : Prop extends Premises s where
  rbxOk      : s.dsOk s.eaRbx 32 = true
  rbxAligned : (s.lin s.eaRbx).toNat % 32 = 0
  rcxOk      : s.dsOk s.eaRcx 4096 = true
  rcxAligned : (s.lin s.eaRcx).toNat % 4096 = 0

/-- RCX resolves to physical address `pa`, in the EPC (R113). -/
structure ReachesPageinfo (s : State) (pa : Nat) : Prop extends ReachesDest s where
  resolves : s.translate (s.lin s.eaRcx) .write = some pa
  inEpc    : frameInEpc s.cfg (frameOf pa) = true

/-- The `n` bytes at `DS:e` are at physical address `a`, translated for reading, outside the EPC (20_memory.md R69). -/
structure SourceAt (s : State) (e : Word64) (n a : Nat) : Prop where
  resolves     : s.translate (s.lin e) .read = some a
  firstOutside : frameInEpc s.cfg (frameOf a) = false
  lastOutside  : frameInEpc s.cfg (frameOf (a + n - 1)) = false

/-- PAGEINFO is read (R114) from physical address `a`: `pageinfo` are its 32 bytes. -/
structure ReachesFields (s : State) (pa : Nat) (pageinfo : List Byte) : Prop extends ReachesPageinfo s pa where
  pageinfoRead : ∃ a, SourceAt s s.eaRbx 32 a ∧ pageinfo = s.mem.readBytes a 32

/-- The source page and the SECINFO pass R116, LINADDR and SECS are zero (R117). -/
structure ReachesSecinfo (s : State) (pa : Nat) (pageinfo : List Byte) : Prop
    extends ReachesFields s pa pageinfo where
  srcOk          : s.dsOk (tmpSrcpge s pageinfo) 4096 = true
  srcAligned     : (s.lin (tmpSrcpge s pageinfo)).toNat % 4096 = 0
  secinfoOk      : s.dsOk (tmpSecinfo s pageinfo) 64 = true
  secinfoAligned : (s.lin (tmpSecinfo s pageinfo)).toNat % 64 = 0
  linaddrZero    : fieldNat pageinfo s.cfg.pageinfo.linaddr = 0
  secsZero       : fieldNat pageinfo s.cfg.pageinfo.secs = 0

/-- The page type that SECINFO names: the PT bits of FLAGS (10_state.md R34). -/
def secinfoPt (c : Config) (secinfo : List Byte) : Nat :=
  fieldNat secinfo c.secinfo.flags / 2 ^ c.secinfo.ptLo % 2 ^ c.secinfo.ptLen

/-- SECINFO is read (R118): `secinfo` are its 64 bytes. -/
structure ReachesSecinfoContent (s : State) (pa : Nat) (pageinfo secinfo : List Byte) : Prop
    extends ReachesSecinfo s pa pageinfo where
  secinfoRead : ∃ a, SourceAt s (tmpSecinfo s pageinfo) 64 a ∧ secinfo = s.mem.readBytes a 64

/-- SECINFO passes R119; the EPCM entry is examined next. -/
structure ReachesEntry (s : State) (pa : Nat) (pageinfo : List Byte) : Prop
    extends ReachesSecinfo s pa pageinfo where
  secinfoPasses : ∃ secinfo, ReachesSecinfoContent s pa pageinfo secinfo ∧
    leNat secinfo &&& s.cfg.secinfo.reserved.toNat = 0 ∧ secinfoPt s.cfg secinfo = s.cfg.ptSecs.toNat

/-- The EPCM entry is neither in use (R121) nor valid (R123); the source page is read next. -/
structure ReachesCopy (s : State) (pa : Nat) (pageinfo : List Byte) : Prop
    extends ReachesEntry s pa pageinfo where
  lockFree : (s.epcmAt (frameOf pa)).lockHeld = false
  notValid : (s.epcmAt (frameOf pa)).valid = false

/-- The copy is made (R128): `page` are the 4096 bytes of the source page. -/
def Copied (s : State) (pa : Nat) (page : List Byte) : Prop :=
  ∃ pageinfo, ReachesCopy s pa pageinfo ∧
    ∃ a, SourceAt s (tmpSrcpge s pageinfo) 4096 a ∧ page = s.mem.readBytes a 4096

/-! ### When a SECS is accepted -/

/-- An address fits the enclave: canonical in a 64-bit enclave, below 2^32 in another (R134, R141). -/
def FitsEnclave (c : Config) (v : Secs) (a : Word64) : Prop :=
  if secsMode64 c v then canonical c.laBits a = true else a.toNat < 2 ^ 32

/-- Items 7 to 16 of 40_ecreate.md R163, for a SECS `v` read out of `page`. -/
structure Accepts (c : Config) (page : List Byte) (v : Secs) : Prop where
  xfrmLow        : (secsXfrm c v).getLsbD 0 = true ∧ (secsXfrm c v).getLsbD 1 = true
  xfrmLegal      : fnTableAt c.xfrmIllegal (secsXfrm c v) = false
  cetOff         : secsCet c v = false → v.cetAttributes = 0 ∧ v.cetLegBitmapOffset = 0#64
  cetIbt         : c.cetIbt = false → v.cetLegBitmapOffset = 0#64 ∧ v.cetAttributes / 4 % 16 = 0
  cetSs          : c.cetSs = false → v.cetAttributes % 4 = 0
  cetPlace       : FitsEnclave c v (v.baseaddr + v.cetLegBitmapOffset)
  cetReserved    : v.cetAttributes &&& c.cetReserved = 0
  cetAligned     : 4096 ∣ v.cetLegBitmapOffset.toNat
  misc           : v.miscselect &&& ~~~c.miscSupported = 0#32
  ssa            : fnTableAt c.xsaveSize (secsXfrm c v) + c.gprSize + fnTableAt c.miscRegionSize v.miscselect
                     ≤ v.ssaframesize.toNat * 4096
  basePlace      : FitsEnclave c v v.baseaddr
  sizeBound      : v.size.toNat < 2 ^ (if secsMode64 c v then c.maxSize64.toNat else c.maxSizeNot64.toNat)
  sizeMin        : 8192 ≤ v.size.toNat
  sizePower      : ∃ k, v.size.toNat = 2 ^ k
  baseAligned    : v.size.toNat ∣ v.baseaddr.toNat
  attributes     : v.attributes &&& ~~~c.attributesMask = 0#128
  reservedZero   : secsReservedZero c page = true
  configId       : secsKss c v = true ∨ (v.configid = 0 ∧ v.configsvn = 0)

/-! ### Invariants -/

/-- What every step keeps: the tables stay canonical, CR_NEXT_EID stays an `EID_BITS`-bit value (10_state.md R29), only
pages of the EPC have a valid entry (R40), and the configuration stays well-formed. -/
structure State.Inv (s : State) : Prop where
  memWf      : s.mem.wf = true
  epcmWf     : tableWf EpcmEntry.empty s.epcm = true
  secsxWf    : tableWf SecsHidden.empty s.secsx = true
  eidRange   : s.nextEid < 2 ^ s.cfg.eidBits
  validInEpc : ∀ p, (s.epcmAt p).valid = true → frameInEpc s.cfg p = true
  cfgWf      : s.cfg.wf = true

/-- EPC page `p` holds an enclave's SECS. -/
def State.holdsSecs (s : State) (p : Nat) : Prop :=
  (s.epcmAt p).valid = true ∧ (s.epcmAt p).pt = s.cfg.ptSecs

/-- No identifier was handed out twice, and none that CR_NEXT_EID is still to hand out (20_memory.md R77). -/
structure State.EidsFresh (s : State) : Prop where
  below    : ∀ p, s.holdsSecs p → (s.secsxAt p).eid < s.nextEid
  distinct : ∀ p q, s.holdsSecs p → s.holdsSecs q → p ≠ q → (s.secsxAt p).eid ≠ (s.secsxAt q).eid

/-- A safe run of `n` steps: no step of it stops. -/
def SafeRun (n : Nat) (s : State) : Prop :=
  ∃ t, Sys2Proof.core.run n s = .next t

end Sys2Proof.Machine
end

