-- ==== Sys2Proof/Certificates/Slice0/Obligations.lean ====
section
/-! DEFINITION. The statements for the provers, in the order of OBLIGATIONS.json. `exec .enclsEcreate` is the instruction
ENCLS[ECREATE]; the conditions (`ReachesDest` up to `Copied`, `Accepts`) are those of Safety.lean. -/

open Sys2Proof Sys2Proof.Machine

/-! ### Encoding, fetching, stepping, reset -/

/-- The table's word, and the three bytes written out from 30_encoding.md R91, decode to the instruction; the same bytes
behind an operand-size byte do not (R96). The bytes are the spec's general knowledge (K1). -/
def Obligations.TableWordDecodesToEcreate : Prop :=
  decodeTableWord 24 0xCF010F = some .enclsEcreate ∧
  decode [0b00001111#8, 0b00000001#8, 0b11001111#8] = .ok (.enclsEcreate, []) ∧
  decode [0x66#8, 0x0F#8, 0x01#8, 0xCF#8] = .error .prefixed

/-- Decoding what the encoder writes gives the instruction back and leaves the bytes after it. -/
def Obligations.DecodeOfEncodeIsIdentity : Prop :=
  ∀ (i : Instr) (rest : List Byte), i.wf = true → decode (encode i ++ rest) = .ok (i, rest)

/-- Whatever the decoder accepts begins with the encoder's bytes: there is no other encoding (R91, R96). -/
def Obligations.DecoderAcceptsOnlyTheEncoding : Prop :=
  ∀ (i : Instr) (bs rest : List Byte), decode bs = .ok (i, rest) → bs = encode i ++ rest

/-- Of all words of the table's 24 bits, exactly `0xCF010F` is the instruction. -/
def Obligations.OnlyOneTableWordIsEcreate : Prop :=
  ∀ w : Nat, decodeTableWord 24 w = some .enclsEcreate ↔ w % 2 ^ 24 = 0xCF010F

/-- A step runs the decoded instruction: when the three bytes at `pc` have translations outside the EPC and are the
encoding of a well-formed instruction, `step` is `exec` of it at the same state. -/
def Obligations.StepRunsDecodedInstruction : Prop :=
  ∀ (s : State) (i : Instr) (a0 a1 a2 : Nat),
    s.translate s.instrPointer .read = some a0 →
    s.translate (s.instrPointer + 1#64) .read = some a1 →
    s.translate (s.instrPointer + 2#64) .read = some a2 →
    frameInEpc s.cfg (frameOf a0) = false → frameInEpc s.cfg (frameOf a1) = false →
    frameInEpc s.cfg (frameOf a2) = false →
    i.wf = true → [s.mem.read a0, s.mem.read a1, s.mem.read a2] = encode i →
    step s = exec i s

/-- Placing the table's word makes the very next step run the instruction, from every state. -/
def Obligations.PlacedWordIsRunByNextStep : Prop :=
  ∀ s : State, step (s.withFetchWord 24 0xCF010F) = exec .enclsEcreate (s.withFetchWord 24 0xCF010F)

/-- Right after reset no EPCM entry is valid and none is locked, and CR_NEXT_EID is the parameter CR_NEXT_EID_reset
(10_state.md R44; VALID = 0 is general knowledge there, the free lock the spec's inference). -/
def Obligations.ResetLeavesEpcmEmptyAndUnlocked : Prop :=
  (∀ p, (State.reset.epcmAt p).valid = false ∧ (State.reset.epcmAt p).lockHeld = false) ∧
    State.reset.nextEid = State.reset.cfg.nextEidReset

/-- The reset state meets the invariant. -/
def Obligations.ResetMeetsInvariant : Prop :=
  State.reset.Inv ∧ State.reset.EidsFresh

/-! ### Addresses and fields -/

/-- Effective and linear addresses (R60, R61; decisions D5, D6): all 64 bits and no base in 64-bit mode; outside it the low 32
bits, and the DS base added modulo 2^32. -/
def Obligations.EffectiveAndLinearAddresses : Prop :=
  ∀ (s : State) (v : Word64),
    (s.mode64 = true → s.effective v = v ∧ s.lin v = v) ∧
    (s.mode64 = false → (s.effective v).toNat = v.toNat % 2 ^ 32 ∧
      (s.lin v).toNat = (s.ds.base.toNat + v.toNat) % 2 ^ 32)

/-- The DS check (R62). In 64-bit mode it fails on a linear address that is not canonical. Where the segment lists no answer of
its own (the OPEN part of the predicate, log entry 7) it is canonicality in 64-bit mode, and outside it every one of the `n`
bytes is between the first and the last address inside the limit; where it lists one, that answer decides. -/
def Obligations.SegmentCheckCoversEveryByte : Prop :=
  ∀ (s : State) (e : Word64) (n : Nat), 0 < n →
    (s.mode64 = true → s.dsOk e n = true → canonical s.cfg.laBits (s.lin e) = true) ∧
    (s.mode64 = true → s.ds.listed = [] → s.dsOk e n = canonical s.cfg.laBits (s.lin e)) ∧
    (s.mode64 = false → s.ds.listed = [] → (s.dsOk e n = true ↔
      ∀ k < n, s.ds.first.toNat ≤ e.toNat + k ∧ e.toNat + k ≤ s.ds.last.toNat)) ∧
    (∀ l ls, s.ds.listed = l :: ls → l.mode64 = s.mode64 → l.len = n → l.first.toNat ≤ e.toNat → e.toNat ≤ l.last.toNat →
      s.dsOk e n = (l.ok && (!s.mode64 || canonical s.cfg.laBits (s.lin e))))

/-- Canonical (R70, K7): bits 63 down to LA_BITS - 1 are all equal. -/
def Obligations.CanonicalMeansHighBitsEqual : Prop :=
  ∀ (laBits : Nat) (a : Word64), 1 ≤ laBits → laBits ≤ 64 →
    (canonical laBits a = true ↔ ∀ i, laBits - 1 ≤ i → i < 64 → a.getLsbD i = a.getLsbD 63)

/-- Byte order (R64, R65; decision D7): byte `i` of a field holds bits `8i+7:8i` of its value. -/
def Obligations.FieldsAreLittleEndian : Prop :=
  ∀ (bs : List Byte) (f : FieldPos) (i : Nat), i < f.len → f.off + f.len ≤ bs.length →
    fieldNat bs f / 2 ^ (8 * i) % 256 = (bs.getD (f.off + i) 0#8).toNat

/-! ### Where the instruction is refused -/

/-- Outside the premises the instruction is refused (R45, R95, R97; the spec's decisions D3, D34, D4). -/
def Obligations.RefusedOutsidePremises : Prop :=
  ∀ s : State, ¬ Premises s → ∃ r, exec .enclsEcreate s = .refused r

/-- PAGEINFO, SECINFO or the source page with its first or its last byte inside the EPC is refused, at its read (R126;
decision D24; that the last byte counts is log entry 15). -/
def Obligations.SourceInsideEpcIsRefused : Prop :=
  ∀ (s : State) (pa a : Nat),
    (ReachesPageinfo s pa → s.translate (s.lin s.eaRbx) .read = some a →
      (frameInEpc s.cfg (frameOf a) = true ∨ frameInEpc s.cfg (frameOf (a + 32 - 1)) = true) →
      exec .enclsEcreate s = .refused (.sourceInsideEpc .pageinfo)) ∧
    (∀ pageinfo, ReachesSecinfo s pa pageinfo → s.translate (s.lin (tmpSecinfo s pageinfo)) .read = some a →
      (frameInEpc s.cfg (frameOf a) = true ∨ frameInEpc s.cfg (frameOf (a + 64 - 1)) = true) →
      exec .enclsEcreate s = .refused (.sourceInsideEpc .secinfo)) ∧
    (∀ pageinfo, ReachesCopy s pa pageinfo → s.translate (s.lin (tmpSrcpge s pageinfo)) .read = some a →
      (frameInEpc s.cfg (frameOf a) = true ∨ frameInEpc s.cfg (frameOf (a + 4096 - 1)) = true) →
      exec .enclsEcreate s = .refused (.sourceInsideEpc .sourcePage))

/-- There is no other refusal: within the premises the only one is that of a source structure whose first or last byte is in
the EPC, met at its read, so every other start state of the premises ends in Complete, a fault or a VM exit (R14, R126;
decision D24, log entry 15). -/
def Obligations.NoOtherRefusalWithinPremises : Prop :=
  ∀ (s : State) (r : Refusal), Premises s → exec .enclsEcreate s = .refused r →
    ∃ what e pa a n, r = .sourceInsideEpc what ∧ s.translate (s.lin e) .read = some a ∧
      (frameInEpc s.cfg (frameOf a) = true ∨ frameInEpc s.cfg (frameOf (a + n - 1)) = true) ∧
      ((what = .pageinfo ∧ e = s.eaRbx ∧ n = 32 ∧ ReachesPageinfo s pa) ∨
        (what = .secinfo ∧ n = 64 ∧ ∃ pageinfo, ReachesSecinfo s pa pageinfo ∧ e = tmpSecinfo s pageinfo) ∨
        (what = .sourcePage ∧ n = 4096 ∧ ∃ pageinfo, ReachesCopy s pa pageinfo ∧ e = tmpSrcpge s pageinfo))

/-! ### The checks before the copy

That an ending before the copy changes nothing is R125, which the spec marks as its own inference; the record and the state
that the outcome carries are log entry 11. -/

/-- The PAGEINFO address: misaligned, or failing the DS check, is `#GP(0)` with nothing changed (R125), whatever RCX and
the structures hold (R111, R124). The place of the DS check and the linear-address reading are decisions D8, D41. -/
def Obligations.PageinfoAddressFaults : Prop :=
  ∀ s : State, Premises s → ((s.lin s.eaRbx).toNat % 32 ≠ 0 ∨ s.dsOk s.eaRbx 32 = false) →
    exec .enclsEcreate s = .fault (.gp 0 s.instrPointer s)

/-- A destination address that is misaligned or fails the DS check is `#GP(0)` with nothing changed (R112, R125). The place of
the DS check is decision D8, the alignment of the linear address D41. -/
def Obligations.DestinationAddressFaults : Prop :=
  ∀ s : State, Premises s → ((s.lin s.eaRcx).toNat % 4096 ≠ 0 ∨ s.dsOk s.eaRcx 4096 = false) →
    exec .enclsEcreate s = .fault (.gp 0 s.instrPointer s)

/-- R113: a destination that paging does not resolve, or that resolves outside the EPC, is `#PF` at `lin(ea(RCX))`, before
PAGEINFO is looked at; the error code is the parameter's at the site. That nothing changes is R125. -/
def Obligations.DestinationOutsideEpcPageFaults : Prop :=
  ∀ s : State, ReachesDest s →
    (s.translate (s.lin s.eaRcx) .write = none →
      exec .enclsEcreate s =
        .fault (.pf (s.lin s.eaRcx) (fnTableAt s.cfg.pfErrorCode .destPaging) s.instrPointer s)) ∧
    (∀ pa, s.translate (s.lin s.eaRcx) .write = some pa → frameInEpc s.cfg (frameOf pa) = false →
      exec .enclsEcreate s =
        .fault (.pf (s.lin s.eaRcx) (fnTableAt s.cfg.pfErrorCode .destOutsideEpc) s.instrPointer s))

/-- A source structure that paging does not resolve is `#PF` at its own linear address, with nothing changed, the
destination page included (R114, R118, R128, R182; that nothing changes is the spec's inference R125, and
for the source page R128). -/
def Obligations.UnreadableSourcePageFaults : Prop :=
  ∀ (s : State) (pa : Nat),
    (ReachesPageinfo s pa → s.translate (s.lin s.eaRbx) .read = none →
      exec .enclsEcreate s =
        .fault (.pf (s.lin s.eaRbx) (fnTableAt s.cfg.pfErrorCode .pageinfoRead) s.instrPointer s)) ∧
    (∀ pageinfo, ReachesSecinfo s pa pageinfo → s.translate (s.lin (tmpSecinfo s pageinfo)) .read = none →
      exec .enclsEcreate s =
        .fault (.pf (s.lin (tmpSecinfo s pageinfo)) (fnTableAt s.cfg.pfErrorCode .secinfoRead) s.instrPointer s)) ∧
    (∀ pageinfo, ReachesCopy s pa pageinfo → s.translate (s.lin (tmpSrcpge s pageinfo)) .read = none →
      exec .enclsEcreate s =
        .fault (.pf (s.lin (tmpSrcpge s pageinfo)) (fnTableAt s.cfg.pfErrorCode .sourceRead) s.instrPointer s))

/-- The addresses out of PAGEINFO: misaligned, or failing the DS check, is `#GP(0)` with nothing changed (R116, R125;
decision D8). -/
def Obligations.SourceAddressesFault : Prop :=
  ∀ (s : State) (pa : Nat) (pageinfo : List Byte), ReachesFields s pa pageinfo →
    ((s.lin (tmpSrcpge s pageinfo)).toNat % 4096 ≠ 0 ∨ (s.lin (tmpSecinfo s pageinfo)).toNat % 64 ≠ 0 ∨
      s.dsOk (tmpSrcpge s pageinfo) 4096 = false ∨ s.dsOk (tmpSecinfo s pageinfo) 64 = false) →
    exec .enclsEcreate s = .fault (.gp 0 s.instrPointer s)

/-- R117: `LINADDR` or `SECS` not zero in PAGEINFO is `#GP(0)`, with nothing changed (R125). -/
def Obligations.UnusedPageinfoFieldsFault : Prop :=
  ∀ (s : State) (pa : Nat) (pageinfo : List Byte), ReachesFields s pa pageinfo →
    (fieldNat pageinfo s.cfg.pageinfo.linaddr ≠ 0 ∨ fieldNat pageinfo s.cfg.pageinfo.secs ≠ 0) →
    exec .enclsEcreate s = .fault (.gp 0 s.instrPointer s)

/-- R119: a reserved bit of SECINFO set, or another page type than `PT_SECS`, is `#GP(0)`, with nothing changed (R125). -/
def Obligations.SecinfoContentFaults : Prop :=
  ∀ (s : State) (pa : Nat) (pageinfo secinfo : List Byte), ReachesSecinfoContent s pa pageinfo secinfo →
    (leNat secinfo &&& s.cfg.secinfo.reserved.toNat ≠ 0 ∨ secinfoPt s.cfg secinfo ≠ s.cfg.ptSecs.toNat) →
    exec .enclsEcreate s = .fault (.gp 0 s.instrPointer s)

/-- Under the default layout the bits R, W, X, PENDING, MODIFIED, PR of SECINFO.FLAGS are not tested (R34): flipping any of
bits 5:0 of the first byte does not change whether SECINFO passes. -/
def Obligations.SecinfoPermissionBitsNotTested : Prop :=
  ∀ (c : Config) (b b' : Byte) (rest : List Byte), c.secinfo = Config.defaultSecinfo → b.toNat / 64 = b'.toNat / 64 →
    rest.length = 63 → secinfoOk c (b :: rest) = secinfoOk c (b' :: rest)

/-- An entry in use ends the instruction at once, whether or not it is also valid (R121): in a guest with EPC virtualisation in
a VM exit that writes the five VMCS fields of R186 and nothing else (R125, decision D29; the physical address is D38), otherwise
in `#GP(0)`, with nothing changed (R125). That "in use" is the lock held by another agent is decision D11. -/
def Obligations.EntryInUseExitsOrFaults : Prop :=
  ∀ (s : State) (pa : Nat) (pageinfo : List Byte), ReachesEntry s pa pageinfo →
    (s.epcmAt (frameOf pa)).lockHeld = true →
    (s.vmxNonRoot = true ∧ s.epcVirtExt = true →
      exec .enclsEcreate s = .fault (.vmExit
        { exitReason := s.cfg.sgxConflict, exitQualificationCode := s.cfg.epcPageConflictException,
          exitQualificationError := 0, guestPhysicalAddress := pa, guestLinearAddress := s.lin s.eaRcx }
        { s with vmcs :=
          { exitReason := s.cfg.sgxConflict, exitQualificationCode := s.cfg.epcPageConflictException,
            exitQualificationError := 0, guestPhysicalAddress := pa, guestLinearAddress := s.lin s.eaRcx } })) ∧
    (¬ (s.vmxNonRoot = true ∧ s.epcVirtExt = true) →
      exec .enclsEcreate s = .fault (.gp 0 s.instrPointer s))

/-- R123: a valid entry is `#PF` at `lin(ea(RCX))`, with nothing changed (R125). -/
def Obligations.ValidEntryPageFaults : Prop :=
  ∀ (s : State) (pa : Nat) (pageinfo : List Byte), ReachesEntry s pa pageinfo →
    (s.epcmAt (frameOf pa)).lockHeld = false → (s.epcmAt (frameOf pa)).valid = true →
    exec .enclsEcreate s =
      .fault (.pf (s.lin s.eaRcx) (fnTableAt s.cfg.pfErrorCode .destValid) s.instrPointer s)

/-! ### The checks on the copy

What such a fault leaves is R129 with decision D10; the record and the state that the outcome carries are log entry 11. -/

/-- The shape of a fault after the copy (R129, R191): `#GP(0)`, and the state is the start state except for the bytes of
the destination page, which hold any value (free, log entry 4), and the model's own count of free pages. -/
def Sys2Proof.Machine.LateFault (s : State) (pa : Nat) : Prop :=
  ∃ t, exec .enclsEcreate s = .fault (.gp 0 s.instrPointer t) ∧
    { t with mem := s.mem, freeCount := s.freeCount } = s ∧
    ∀ a, s.mem.wf = true → frameOf a ≠ frameOf pa → t.mem.read a = s.mem.read a

/-- R130, R131: XFRM without its low two bits, or illegal, is `#GP(0)`. -/
def Obligations.BadXfrmFaults : Prop :=
  ∀ (s : State) (pa : Nat) (page : List Byte), Copied s pa page →
    ((secsXfrm s.cfg (parseSecs s.cfg page)).toNat % 4 ≠ 3 ∨
      fnTableAt s.cfg.xfrmIllegal (secsXfrm s.cfg (parseSecs s.cfg page)) = true) →
    LateFault s pa

/-- R132, R133, R135: CET fields set without the attribute or without processor support, reserved bits, or a bitmap offset
that is not page aligned, are `#GP(0)`. -/
def Obligations.BadCetFieldsFault : Prop :=
  ∀ (s : State) (pa : Nat) (page : List Byte) (v : Secs), Copied s pa page → v = parseSecs s.cfg page →
    ((secsCet s.cfg v = false ∧ (v.cetAttributes ≠ 0 ∨ v.cetLegBitmapOffset ≠ 0#64)) ∨
      (s.cfg.cetIbt = false ∧ (v.cetLegBitmapOffset ≠ 0#64 ∨ v.cetAttributes / 4 % 16 ≠ 0)) ∨
      (s.cfg.cetSs = false ∧ v.cetAttributes % 4 ≠ 0) ∨
      v.cetAttributes &&& s.cfg.cetReserved ≠ 0 ∨ v.cetLegBitmapOffset.toNat % 4096 ≠ 0) →
    LateFault s pa

/-- The legacy bitmap out of the enclave's range is `#GP(0)` (R134); the sum modulo 2^64 is decision D15. -/
def Obligations.CetBitmapPlaceFaults : Prop :=
  ∀ (s : State) (pa : Nat) (page : List Byte) (v : Secs), Copied s pa page → v = parseSecs s.cfg page →
    ¬ FitsEnclave s.cfg v (v.baseaddr + v.cetLegBitmapOffset) → LateFault s pa

/-- An unsupported MISCSELECT bit is `#GP(0)` (R138, the comment's reading by 90_conflicts.md C2, decision D13). -/
def Obligations.UnsupportedMiscselectFaults : Prop :=
  ∀ (s : State) (pa : Nat) (page : List Byte) (v : Secs) (i : Nat), Copied s pa page → v = parseSecs s.cfg page →
    v.miscselect.getLsbD i = true → s.cfg.miscSupported.getLsbD i = false → LateFault s pa

/-- An SSA frame too small is `#GP(0)` (R139, R140; the product over the naturals is decision D14). -/
def Obligations.SmallSsaFrameFaults : Prop :=
  ∀ (s : State) (pa : Nat) (page : List Byte) (v : Secs), Copied s pa page → v = parseSecs s.cfg page →
    v.ssaframesize.toNat * 4096 < fnTableAt s.cfg.xsaveSize (secsXfrm s.cfg v) + s.cfg.gprSize +
      fnTableAt s.cfg.miscRegionSize v.miscselect → LateFault s pa

/-- R141: BASEADDR not canonical in a 64-bit enclave, or with a bit above 31 in another, is `#GP(0)`. -/
def Obligations.BaseaddrOutOfRangeFaults : Prop :=
  ∀ (s : State) (pa : Nat) (page : List Byte) (v : Secs), Copied s pa page → v = parseSecs s.cfg page →
    ((secsMode64 s.cfg v = true ∧ canonical s.cfg.laBits v.baseaddr = false) ∨
      (secsMode64 s.cfg v = false ∧ 2 ^ 32 ≤ v.baseaddr.toNat)) → LateFault s pa

/-- A SIZE equal to the CPUID bound or above it is `#GP(0)` (R143; the power over the naturals is decision D16). -/
def Obligations.SizeAtBoundFaults : Prop :=
  ∀ (s : State) (pa : Nat) (page : List Byte) (v : Secs), Copied s pa page → v = parseSecs s.cfg page →
    ((secsMode64 s.cfg v = false ∧ 2 ^ s.cfg.maxSizeNot64.toNat ≤ v.size.toNat) ∨
      (secsMode64 s.cfg v = true ∧ 2 ^ s.cfg.maxSize64.toNat ≤ v.size.toNat)) → LateFault s pa

/-- R144: a SIZE below 8192 or not a power of two, or a BASEADDR that is no multiple of SIZE, is `#GP(0)`. -/
def Obligations.BadSizeOrMisalignedBaseFaults : Prop :=
  ∀ (s : State) (pa : Nat) (page : List Byte) (v : Secs), Copied s pa page → v = parseSecs s.cfg page →
    (v.size.toNat < 8192 ∨ (∀ k, v.size.toNat ≠ 2 ^ k) ∨ ¬ v.size.toNat ∣ v.baseaddr.toNat) → LateFault s pa

/-- An attribute outside the mask (R145), a SECS that fails the OPEN predicate `secs_reserved_zero` (R146; its form is log
entry 18), or CONFIGID or CONFIGSVN without KSS (R147), is `#GP(0)`. -/
def Obligations.AttributesReservedConfigFault : Prop :=
  ∀ (s : State) (pa : Nat) (page : List Byte) (v : Secs), Copied s pa page → v = parseSecs s.cfg page →
    ((∃ i, v.attributes.getLsbD i = true ∧ s.cfg.attributesMask.getLsbD i = false) ∨
      secsReservedZero s.cfg page = false ∨
      (secsKss s.cfg v = false ∧ (v.configid ≠ 0 ∨ v.configsvn ≠ 0))) → LateFault s pa

/-- `secs_reserved_zero` (R146, log entry 18) of a configuration that lists no page: every byte of the reserved fields is zero;
under the default ranges (the spec's general knowledge) these are bytes 33 to 47, 96 to 127, 160 to 191 and 262 to 4095. A
listed page has the answer listed for it, whatever its MRENCLAVE, ISVSVN and ISVPRODID hold. -/
def Obligations.ReservedFieldsAreZeroBytes : Prop :=
  ∀ (c : Config) (page : List Byte), page.length = 4096 →
    (c.secsReservedListed = [] → (secsReservedZero c page = true ↔
      ∀ f ∈ c.secsReserved, ∀ k, f.off ≤ k → k < f.off + f.len → page.getD k 0#8 = 0#8)) ∧
    (c.secsReservedListed = [] → c.secsReserved = Config.defaultSecsReserved → (secsReservedZero c page = true ↔
      ∀ k, (33 ≤ k ∧ k < 48) ∨ (96 ≤ k ∧ k < 128) ∨ (160 ≤ k ∧ k < 192) ∨ (262 ≤ k ∧ k < 4096) →
        page.getD k 0#8 = 0#8)) ∧
    (∀ answer rest, c.secsReservedListed = (blankOverwritten c page, answer) :: rest → secsReservedZero c page = answer)

/-! ### Completion -/

/-- The instruction completes: when the copy is made and the SECS is accepted, `exec` answers this next state (R148 to
R162). It rests on the spec's decisions D4, D11, D12, D17 to D20, D37, D38 and on log entries 5 (the bytes of MRENCLAVE in the
page) and 19 (`pc` over all 64 bits in both modes). -/
def Obligations.EcreateCompletesWithThisState : Prop :=
  ∀ (s : State) (pa : Nat) (page : List Byte), Copied s pa page → Accepts s.cfg page (parseSecs s.cfg page) →
    exec .enclsEcreate s = .next
      { s with
        pc      := s.pc + 3#64
        nextEid := (s.nextEid + 1) % 2 ^ s.cfg.eidBits
        mem     := s.mem.writeBytes (frameOf pa * 4096) (committedPage s.cfg page)
        epcm    := tableInsert EpcmEntry.empty s.epcm (frameOf pa)
          { valid := true, pt := s.cfg.ptSecs, enclaveAddress := 0, r := false, w := false, x := false,
            blocked := false, pending := false, modified := false, pr := false, lockHeld := false }
        secsx   := tableInsert SecsHidden.empty s.secsx (frameOf pa)
          { initialized := false, mrUpdateCounter := 1, eid := s.nextEid, virtChildCnt := 0, enclaveContext := pa,
            mrenclave := sha256Block sha256Init (measurementBlock s.cfg (parseSecs s.cfg page)) } }

/-- R163: the instruction completes EXACTLY when the sixteen conditions hold. The list is the spec's inference
from R111 to R147; the form of its reserved-field item is log entry 18. -/
def Obligations.CompletesExactlyWhenAllConditionsHold : Prop :=
  ∀ s : State, (∃ t, exec .enclsEcreate s = .next t) ↔
    ∃ pa page, Copied s pa page ∧ Accepts s.cfg page (parseSecs s.cfg page)

/-- R159, R160, R161: the new EPCM entry, field by field. -/
def Obligations.CompletionSetsEpcmEntry : Prop :=
  ∀ (s : State) (pa : Nat) (page : List Byte), Copied s pa page → Accepts s.cfg page (parseSecs s.cfg page) →
    ∃ t, exec .enclsEcreate s = .next t ∧ (t.epcmAt (frameOf pa)).pt = s.cfg.ptSecs ∧
      (t.epcmAt (frameOf pa)).enclaveAddress = 0 ∧ (t.epcmAt (frameOf pa)).r = false ∧
      (t.epcmAt (frameOf pa)).w = false ∧ (t.epcmAt (frameOf pa)).x = false ∧
      (t.epcmAt (frameOf pa)).blocked = false ∧ (t.epcmAt (frameOf pa)).pending = false ∧
      (t.epcmAt (frameOf pa)).modified = false ∧ (t.epcmAt (frameOf pa)).pr = false ∧
      (t.epcmAt (frameOf pa)).valid = true

/-- The hidden SECS fields, CR_NEXT_EID and `pc` after completion (R149, R152, R154, R156, R157, R158; decisions D4, D17, D18,
D20, D38): the new SECS gets the counter's old value, the counter advances modulo `2^EID_BITS`, and `pc` by 3, which over all
64 bits in both modes is log entry 19. -/
def Obligations.CompletionSetsHiddenFieldsAndCounter : Prop :=
  ∀ (s : State) (pa : Nat) (page : List Byte), Copied s pa page → Accepts s.cfg page (parseSecs s.cfg page) →
    ∃ t, exec .enclsEcreate s = .next t ∧ (t.secsxAt (frameOf pa)).initialized = false ∧
      (t.secsxAt (frameOf pa)).mrUpdateCounter = 1 ∧ (t.secsxAt (frameOf pa)).eid = s.nextEid ∧
      (t.secsxAt (frameOf pa)).virtChildCnt = 0 ∧ (t.secsxAt (frameOf pa)).enclaveContext = pa ∧
      t.nextEid = (s.nextEid + 1) % 2 ^ s.cfg.eidBits ∧ t.pc = s.pc + 3#64

/-- R151: after completion ISVSVN and ISVPRODID of the copy are zero, whatever the source page held. -/
def Obligations.CompletionZeroesIsvFields : Prop :=
  ∀ (s : State) (pa : Nat) (page : List Byte), s.Inv → Copied s pa page →
    Accepts s.cfg page (parseSecs s.cfg page) →
    ∃ t, exec .enclsEcreate s = .next t ∧ fieldNat (t.epcData (frameOf pa)) s.cfg.secs.isvsvn = 0 ∧
      fieldNat (t.epcData (frameOf pa)) s.cfg.secs.isvprodid = 0

/-- After completion every byte of the EPC page outside MRENCLAVE, ISVSVN and ISVPRODID is the source page's (R128, R191; that
the commit clears nothing else is decision D17). -/
def Obligations.CompletionCopiesThePage : Prop :=
  ∀ (s : State) (pa : Nat) (page : List Byte) (k : Nat), Copied s pa page →
    Accepts s.cfg page (parseSecs s.cfg page) → k < 4096 →
    (∀ f ∈ [s.cfg.secs.mrenclave, s.cfg.secs.isvsvn, s.cfg.secs.isvprodid], k < f.off ∨ f.off + f.len ≤ k) →
    ∃ t, exec .enclsEcreate s = .next t ∧ t.mem.read (frameOf pa * 4096 + k) = page.getD k 0#8

/-- MRENCLAVE after completion (R150, R153, R155): one SHA-256 block applied to the initial words, the block being the 512
bits of R153's table. The clearing read as [511:224] is 90_conflicts.md C1; SHA-256 is general knowledge K8. -/
def Obligations.CompletionMeasuresTheBlock : Prop :=
  ∀ (s : State) (pa : Nat) (page : List Byte) (v : Secs), Copied s pa page → v = parseSecs s.cfg page →
    Accepts s.cfg page v →
    ∃ t block, exec .enclsEcreate s = .next t ∧
      (t.secsxAt (frameOf pa)).mrenclave = sha256Block sha256Init block ∧ block.length = 64 ∧
      leNat block = 0x0045544145524345 + v.ssaframesize.toNat * 2 ^ 64 + v.size.toNat * 2 ^ 96 +
        (if s.cfg.cetIbt then v.cetLegBitmapOffset.toNat else 0) * 2 ^ 160

/-- The published digest of "abc", whose padded message is one block (95_test_vectors.md 2.6). -/
def Obligations.HashOfAbcIsThePublishedDigest : Prop :=
  sha256Block sha256Init ([0x61#8, 0x62#8, 0x63#8, 0x80#8] ++ List.replicate 59 0#8 ++ [0x18#8]) =
    ⟨0xba7816bf, 0x8f01cfea, 0x414140de, 0x5dae2223, 0xb00361a3, 0x96177a9c, 0xb410ff61, 0xf20015ad⟩

/-! ### Frames -/

/-- R23: no general register changes, under any outcome. -/
def Obligations.NoGeneralRegisterChanges : Prop :=
  ∀ s t : State, endState (exec .enclsEcreate s) = some t → t.gpr = s.gpr

/-- R24: no flag changes under any outcome, and none is read: with another flags register the outcome is the same, its kind and
its record included, but for that register in the state it carries. -/
def Obligations.FlagsAreNeitherReadNorWritten : Prop :=
  ∀ (s : State) (flags : Word64),
    (∀ t, endState (exec .enclsEcreate s) = some t → t.rflags = s.rflags) ∧
    exec .enclsEcreate { s with rflags := flags } =
      mapOutcome (fun t => { t with rflags := flags }) (exec .enclsEcreate s)

/-- R43: the frame of the instruction under every outcome. Registers, flags, segments, control registers, modes, CPUID values and
page tables are unchanged; so are every byte of memory, every EPCM entry and every SECSX record outside the page that
RCX resolves to. The premise is the invariant's canonical form of the tables. -/
def Obligations.EverythingElseIsUnchanged : Prop :=
  ∀ s t : State, s.Inv → endState (exec .enclsEcreate s) = some t →
    t.gpr = s.gpr ∧ t.rflags = s.rflags ∧ t.ds = s.ds ∧ t.otherRegs = s.otherRegs ∧ t.cfg = s.cfg ∧
    t.paging = s.paging ∧ t.mode64 = s.mode64 ∧ t.vmxNonRoot = s.vmxNonRoot ∧ t.epcVirtExt = s.epcVirtExt ∧
    t.cpl = s.cpl ∧ t.inEnclave = s.inEnclave ∧ t.sgxEnabled = s.sgxEnabled ∧ t.inSmm = s.inSmm ∧
    t.interruptPending = s.interruptPending ∧
    (∀ a, (∀ pa, s.translate (s.lin s.eaRcx) .write = some pa → frameOf a ≠ frameOf pa) →
      t.mem.read a = s.mem.read a) ∧
    (∀ p, (∀ pa, s.translate (s.lin s.eaRcx) .write = some pa → p ≠ frameOf pa) →
      t.epcmAt p = s.epcmAt p ∧ t.secsxAt p = s.secsxAt p)

/-- An instruction that is not refused and does not get to the copy leaves the start state, but for the five VMCS fields of a
VM exit (R125, R191, the spec's own inferences). -/
def Obligations.EndingsBeforeTheCopyChangeNothing : Prop :=
  ∀ s t : State, endState (exec .enclsEcreate s) = some t → (¬ ∃ pa page, Copied s pa page) →
    (t = s ∧ ∃ f, exec .enclsEcreate s = .fault f) ∨
    ∃ v, exec .enclsEcreate s = .fault (.vmExit v { s with vmcs := v }) ∧ t = { s with vmcs := v }

/-- What a fault records (R181, R182, R190): the error code of `#GP` is 0, the recorded `pc` is the instruction's own, a
`#PF` is at one of the four operands' linear addresses and leaves the start state, and `pc` is unchanged. -/
def Obligations.FaultRecordsAreAsSpecified : Prop :=
  ∀ (s : State) (f : Fault), exec .enclsEcreate s = .fault f → (resumeState f).pc = s.pc ∧
    match f with
    | .gp code pc _     => code = 0 ∧ pc = s.instrPointer
    | .pf la _ pc after => pc = s.instrPointer ∧ after = s ∧
        (la = s.lin s.eaRcx ∨ la = s.lin s.eaRbx ∨
          ∃ pa pageinfo, ReachesSecinfo s pa pageinfo ∧
            (la = s.lin (tmpSecinfo s pageinfo) ∨ la = s.lin (tmpSrcpge s pageinfo)))
    | .vmExit v after   => after = { s with vmcs := v } ∧ s.vmxNonRoot = true ∧ s.epcVirtExt = true

/-- The instruction never takes or drops another agent's lock: every entry's `held` is as it was, under every outcome (R41,
R127, R191; decision D11). -/
def Obligations.EntryLocksAreAsBefore : Prop :=
  ∀ (s t : State) (p : Nat), s.Inv → endState (exec .enclsEcreate s) = some t →
    (t.epcmAt p).lockHeld = (s.epcmAt p).lockHeld

/-! ### The whole machine -/

/-- Every step that answers a next state keeps the invariant. -/
def Obligations.StepKeepsInvariant : Prop :=
  ∀ s t : State, s.Inv → step s = .next t → t.Inv

/-- A step that ends in a fault or a VM exit leaves a state that meets the invariant, so software can resume from it. -/
def Obligations.FaultsKeepInvariant : Prop :=
  ∀ (s : State) (f : Fault), s.Inv → step s = .fault f → (resumeState f).Inv

/-- Identifiers are never handed out twice until the counter wraps (R77; decision D20): freshness is kept by every step that does
not wrap CR_NEXT_EID. -/
def Obligations.EnclaveIdsStayDistinct : Prop :=
  ∀ s t : State, s.Inv → s.EidsFresh → s.nextEid + 1 < 2 ^ s.cfg.eidBits → step s = .next t → t.EidsFresh

/-- An enclave that exists is not disturbed: under every outcome of a step a valid page keeps its EPCM entry, its hidden record
and all its 4096 bytes (R43, R123; program P2). -/
def Obligations.ExistingEnclavesAreUndisturbed : Prop :=
  ∀ (s t : State) (p : Nat), s.Inv → endState (step s) = some t → (s.epcmAt p).valid = true →
    t.epcmAt p = s.epcmAt p ∧ t.secsxAt p = s.secsxAt p ∧ t.epcData p = s.epcData p

/-- Executing the instruction twice with the same registers: after a completion the next execution ends in `#PF` at
`lin(ea(RCX))` with nothing changed, if `pc` still fits (R123, R164; program P2). -/
def Obligations.SecondEcreateOnSamePagePageFaults : Prop :=
  ∀ s t : State, s.Inv → exec .enclsEcreate s = .next t → t.pcOverflows 3 = false →
    exec .enclsEcreate t =
      .fault (.pf (s.lin s.eaRcx) (fnTableAt s.cfg.pfErrorCode .destValid) t.instrPointer t)

/-- A faulting instruction that is executed again without a repair faults again with the same kind, address, error code and
`pc` (R193, the spec's inference; decision D10): nothing that the instruction reads was changed by the first attempt. -/
def Obligations.RetryWithoutRepairFaultsAlike : Prop :=
  ∀ (s t : State) (la : Word64) (code : Nat) (pc : Word64), s.Inv →
    (exec .enclsEcreate s = .fault (.gp code pc t) → ∃ u, exec .enclsEcreate t = .fault (.gp code pc u)) ∧
    (exec .enclsEcreate s = .fault (.pf la code pc t) → exec .enclsEcreate t = .fault (.pf la code pc t))

/-- The measurement depends on SSAFRAMESIZE, SIZE and, if CET_IBT is supported, the bitmap offset, and on nothing else: two
completions whose source pages agree on these give the same MRENCLAVE, whatever else differs (R153; program P5). -/
def Obligations.MeasurementDependsOnThreeFields : Prop :=
  ∀ (s s' t t' : State) (pa pa' : Nat) (page page' : List Byte),
    Copied s pa page → Copied s' pa' page' → exec .enclsEcreate s = .next t → exec .enclsEcreate s' = .next t' →
    s.cfg.cetIbt = s'.cfg.cetIbt →
    (parseSecs s.cfg page).ssaframesize = (parseSecs s'.cfg page').ssaframesize →
    (parseSecs s.cfg page).size = (parseSecs s'.cfg page').size →
    (s.cfg.cetIbt = true →
      (parseSecs s.cfg page).cetLegBitmapOffset = (parseSecs s'.cfg page').cetLegBitmapOffset) →
    (t.secsxAt (frameOf pa)).mrenclave = (t'.secsxAt (frameOf pa')).mrenclave

/-- What software put in MRENCLAVE, ISVSVN and ISVPRODID of the source page has no effect (R146, R150, R151): two pages that agree
on every other byte are both rejected or both accepted, and give the same EPC page and the same measurement. That the EPC page's
MRENCLAVE bytes are a function of the measured words is log entry 5. -/
def Obligations.OverwrittenFieldsHaveNoEffect : Prop :=
  ∀ (c : Config) (page page' : List Byte), c.wf = true → page.length = 4096 → page'.length = 4096 →
    (∀ k, (∀ f ∈ [c.secs.mrenclave, c.secs.isvsvn, c.secs.isvprodid], k < f.off ∨ f.off + f.len ≤ k) →
      page.getD k 0#8 = page'.getD k 0#8) →
    secsRejected c page = secsRejected c page' ∧ committedPage c page = committedPage c page' ∧
      ecreateMeasurement c page = ecreateMeasurement c page'

/-- Virtualisation matters only when the entry is in use (R186, R195): a completion in one VMX setting is a completion in every
other, with the same effect. -/
def Obligations.CompletionIgnoresVirtualisation : Prop :=
  ∀ (s t : State) (nonRoot virtExt : Bool), exec .enclsEcreate s = .next t →
    exec .enclsEcreate { s with vmxNonRoot := nonRoot, epcVirtExt := virtExt } =
      .next { t with vmxNonRoot := nonRoot, epcVirtExt := virtExt }

/-- The low half of RAX, and RBX and RCX, are all that the instruction reads of the general registers, and outside 64-bit mode only
the low halves of RBX and RCX (R22, R60, R92; decision D5): with other registers the outcome is the same, its kind and its record
included, but for those registers in the state it carries. -/
def Obligations.UpperHalvesIgnoredOutside64BitMode : Prop :=
  ∀ (s : State) (g : Gprs), g.rax.toNat % 2 ^ 32 = s.gpr.rax.toNat % 2 ^ 32 →
    (s.mode64 = false ∧ g.rbx.toNat % 2 ^ 32 = s.gpr.rbx.toNat % 2 ^ 32 ∧
        g.rcx.toNat % 2 ^ 32 = s.gpr.rcx.toNat % 2 ^ 32 ∨
      g.rbx = s.gpr.rbx ∧ g.rcx = s.gpr.rcx) →
    exec .enclsEcreate { s with gpr := g } = mapOutcome (fun t => { t with gpr := g }) (exec .enclsEcreate s)

/-- Outside 64-bit mode the upper halves of PAGEINFO.SRCPGE and PAGEINFO.SECINFO have no effect (R33, R60; decision D5): with
another memory whose PAGEINFO differs only there, and which holds the same SECINFO and source page, the outcome is the same, its
kind and its record included, but for the memory in the state it carries. -/
def Obligations.PageinfoUpperHalvesIgnoredOutside64BitMode : Prop :=
  ∀ (s : State) (m : Memory), s.mode64 = false →
    (∀ a p q, s.translate (s.lin s.eaRbx) .read = some a → p = s.mem.readBytes a 32 → q = m.readBytes a 32 →
      fieldNat q s.cfg.pageinfo.linaddr = fieldNat p s.cfg.pageinfo.linaddr ∧
      fieldNat q s.cfg.pageinfo.secs = fieldNat p s.cfg.pageinfo.secs ∧
      fieldNat q s.cfg.pageinfo.srcpge % 2 ^ 32 = fieldNat p s.cfg.pageinfo.srcpge % 2 ^ 32 ∧
      fieldNat q s.cfg.pageinfo.secinfo % 2 ^ 32 = fieldNat p s.cfg.pageinfo.secinfo % 2 ^ 32 ∧
      (∀ b, s.translate (s.lin (tmpSecinfo s p)) .read = some b → m.readBytes b 64 = s.mem.readBytes b 64) ∧
      ∀ b, s.translate (s.lin (tmpSrcpge s p)) .read = some b → m.readBytes b 4096 = s.mem.readBytes b 4096) →
    mapOutcome (fun t => { t with mem := [] }) (exec .enclsEcreate { s with mem := m }) =
      mapOutcome (fun t => { t with mem := [] }) (exec .enclsEcreate s)
end

