-- ==== Sys2Proof/Laws/State.lean ====
section
/-! SUPPORT. One lemma for each field of State under each update, so that no later proof unfolds a record update. -/

namespace Sys2Proof.Machine

variable (s : State)

/-! ### setEpcData -/

@[simp] theorem State.setEpcData_cfg (p : Nat) (bs : List Byte) : (s.setEpcData p bs).cfg = s.cfg := rfl
@[simp] theorem State.setEpcData_gpr (p : Nat) (bs : List Byte) : (s.setEpcData p bs).gpr = s.gpr := rfl
@[simp] theorem State.setEpcData_rflags (p : Nat) (bs : List Byte) : (s.setEpcData p bs).rflags = s.rflags := rfl
@[simp] theorem State.setEpcData_pc (p : Nat) (bs : List Byte) : (s.setEpcData p bs).pc = s.pc := rfl
@[simp] theorem State.setEpcData_ds (p : Nat) (bs : List Byte) : (s.setEpcData p bs).ds = s.ds := rfl
@[simp] theorem State.setEpcData_otherRegs (p : Nat) (bs : List Byte) : (s.setEpcData p bs).otherRegs = s.otherRegs := rfl
@[simp] theorem State.setEpcData_mode64 (p : Nat) (bs : List Byte) : (s.setEpcData p bs).mode64 = s.mode64 := rfl
@[simp] theorem State.setEpcData_vmxNonRoot (p : Nat) (bs : List Byte) : (s.setEpcData p bs).vmxNonRoot = s.vmxNonRoot := rfl
@[simp] theorem State.setEpcData_epcVirtExt (p : Nat) (bs : List Byte) : (s.setEpcData p bs).epcVirtExt = s.epcVirtExt := rfl
@[simp] theorem State.setEpcData_cpl (p : Nat) (bs : List Byte) : (s.setEpcData p bs).cpl = s.cpl := rfl
@[simp] theorem State.setEpcData_inEnclave (p : Nat) (bs : List Byte) : (s.setEpcData p bs).inEnclave = s.inEnclave := rfl
@[simp] theorem State.setEpcData_sgxEnabled (p : Nat) (bs : List Byte) : (s.setEpcData p bs).sgxEnabled = s.sgxEnabled := rfl
@[simp] theorem State.setEpcData_inSmm (p : Nat) (bs : List Byte) : (s.setEpcData p bs).inSmm = s.inSmm := rfl
@[simp] theorem State.setEpcData_interruptPending (p : Nat) (bs : List Byte) : (s.setEpcData p bs).interruptPending = s.interruptPending := rfl
@[simp] theorem State.setEpcData_nextEid (p : Nat) (bs : List Byte) : (s.setEpcData p bs).nextEid = s.nextEid := rfl
@[simp] theorem State.setEpcData_vmcs (p : Nat) (bs : List Byte) : (s.setEpcData p bs).vmcs = s.vmcs := rfl
@[simp] theorem State.setEpcData_paging (p : Nat) (bs : List Byte) : (s.setEpcData p bs).paging = s.paging := rfl
@[simp] theorem State.setEpcData_mem (p : Nat) (bs : List Byte) : (s.setEpcData p bs).mem = s.mem.writeBytes (p * 4096) bs := rfl
@[simp] theorem State.setEpcData_epcm (p : Nat) (bs : List Byte) : (s.setEpcData p bs).epcm = s.epcm := rfl
@[simp] theorem State.setEpcData_secsx (p : Nat) (bs : List Byte) : (s.setEpcData p bs).secsx = s.secsx := rfl
@[simp] theorem State.setEpcData_freeCount (p : Nat) (bs : List Byte) : (s.setEpcData p bs).freeCount = s.freeCount := rfl

/-! ### forgetEpcData -/

@[simp] theorem State.forgetEpcData_cfg (p : Nat) : (s.forgetEpcData p).cfg = s.cfg := rfl
@[simp] theorem State.forgetEpcData_gpr (p : Nat) : (s.forgetEpcData p).gpr = s.gpr := rfl
@[simp] theorem State.forgetEpcData_rflags (p : Nat) : (s.forgetEpcData p).rflags = s.rflags := rfl
@[simp] theorem State.forgetEpcData_pc (p : Nat) : (s.forgetEpcData p).pc = s.pc := rfl
@[simp] theorem State.forgetEpcData_ds (p : Nat) : (s.forgetEpcData p).ds = s.ds := rfl
@[simp] theorem State.forgetEpcData_otherRegs (p : Nat) : (s.forgetEpcData p).otherRegs = s.otherRegs := rfl
@[simp] theorem State.forgetEpcData_mode64 (p : Nat) : (s.forgetEpcData p).mode64 = s.mode64 := rfl
@[simp] theorem State.forgetEpcData_vmxNonRoot (p : Nat) : (s.forgetEpcData p).vmxNonRoot = s.vmxNonRoot := rfl
@[simp] theorem State.forgetEpcData_epcVirtExt (p : Nat) : (s.forgetEpcData p).epcVirtExt = s.epcVirtExt := rfl
@[simp] theorem State.forgetEpcData_cpl (p : Nat) : (s.forgetEpcData p).cpl = s.cpl := rfl
@[simp] theorem State.forgetEpcData_inEnclave (p : Nat) : (s.forgetEpcData p).inEnclave = s.inEnclave := rfl
@[simp] theorem State.forgetEpcData_sgxEnabled (p : Nat) : (s.forgetEpcData p).sgxEnabled = s.sgxEnabled := rfl
@[simp] theorem State.forgetEpcData_inSmm (p : Nat) : (s.forgetEpcData p).inSmm = s.inSmm := rfl
@[simp] theorem State.forgetEpcData_interruptPending (p : Nat) : (s.forgetEpcData p).interruptPending = s.interruptPending := rfl
@[simp] theorem State.forgetEpcData_nextEid (p : Nat) : (s.forgetEpcData p).nextEid = s.nextEid := rfl
@[simp] theorem State.forgetEpcData_vmcs (p : Nat) : (s.forgetEpcData p).vmcs = s.vmcs := rfl
@[simp] theorem State.forgetEpcData_paging (p : Nat) : (s.forgetEpcData p).paging = s.paging := rfl
@[simp] theorem State.forgetEpcData_mem (p : Nat) : (s.forgetEpcData p).mem = s.mem.writeBytes (p * 4096) ((List.range 4096).map (Config.freeEpcByte s.freeCount)) := rfl
@[simp] theorem State.forgetEpcData_epcm (p : Nat) : (s.forgetEpcData p).epcm = s.epcm := rfl
@[simp] theorem State.forgetEpcData_secsx (p : Nat) : (s.forgetEpcData p).secsx = s.secsx := rfl
@[simp] theorem State.forgetEpcData_freeCount (p : Nat) : (s.forgetEpcData p).freeCount = s.freeCount + 1 := rfl

/-! ### setEpcm -/

@[simp] theorem State.setEpcm_cfg (p : Nat) (e : EpcmEntry) : (s.setEpcm p e).cfg = s.cfg := rfl
@[simp] theorem State.setEpcm_gpr (p : Nat) (e : EpcmEntry) : (s.setEpcm p e).gpr = s.gpr := rfl
@[simp] theorem State.setEpcm_rflags (p : Nat) (e : EpcmEntry) : (s.setEpcm p e).rflags = s.rflags := rfl
@[simp] theorem State.setEpcm_pc (p : Nat) (e : EpcmEntry) : (s.setEpcm p e).pc = s.pc := rfl
@[simp] theorem State.setEpcm_ds (p : Nat) (e : EpcmEntry) : (s.setEpcm p e).ds = s.ds := rfl
@[simp] theorem State.setEpcm_otherRegs (p : Nat) (e : EpcmEntry) : (s.setEpcm p e).otherRegs = s.otherRegs := rfl
@[simp] theorem State.setEpcm_mode64 (p : Nat) (e : EpcmEntry) : (s.setEpcm p e).mode64 = s.mode64 := rfl
@[simp] theorem State.setEpcm_vmxNonRoot (p : Nat) (e : EpcmEntry) : (s.setEpcm p e).vmxNonRoot = s.vmxNonRoot := rfl
@[simp] theorem State.setEpcm_epcVirtExt (p : Nat) (e : EpcmEntry) : (s.setEpcm p e).epcVirtExt = s.epcVirtExt := rfl
@[simp] theorem State.setEpcm_cpl (p : Nat) (e : EpcmEntry) : (s.setEpcm p e).cpl = s.cpl := rfl
@[simp] theorem State.setEpcm_inEnclave (p : Nat) (e : EpcmEntry) : (s.setEpcm p e).inEnclave = s.inEnclave := rfl
@[simp] theorem State.setEpcm_sgxEnabled (p : Nat) (e : EpcmEntry) : (s.setEpcm p e).sgxEnabled = s.sgxEnabled := rfl
@[simp] theorem State.setEpcm_inSmm (p : Nat) (e : EpcmEntry) : (s.setEpcm p e).inSmm = s.inSmm := rfl
@[simp] theorem State.setEpcm_interruptPending (p : Nat) (e : EpcmEntry) : (s.setEpcm p e).interruptPending = s.interruptPending := rfl
@[simp] theorem State.setEpcm_nextEid (p : Nat) (e : EpcmEntry) : (s.setEpcm p e).nextEid = s.nextEid := rfl
@[simp] theorem State.setEpcm_vmcs (p : Nat) (e : EpcmEntry) : (s.setEpcm p e).vmcs = s.vmcs := rfl
@[simp] theorem State.setEpcm_paging (p : Nat) (e : EpcmEntry) : (s.setEpcm p e).paging = s.paging := rfl
@[simp] theorem State.setEpcm_mem (p : Nat) (e : EpcmEntry) : (s.setEpcm p e).mem = s.mem := rfl
@[simp] theorem State.setEpcm_epcm (p : Nat) (e : EpcmEntry) : (s.setEpcm p e).epcm = tableInsert EpcmEntry.empty s.epcm p e := rfl
@[simp] theorem State.setEpcm_secsx (p : Nat) (e : EpcmEntry) : (s.setEpcm p e).secsx = s.secsx := rfl
@[simp] theorem State.setEpcm_freeCount (p : Nat) (e : EpcmEntry) : (s.setEpcm p e).freeCount = s.freeCount := rfl

/-! ### setSecsx -/

@[simp] theorem State.setSecsx_cfg (p : Nat) (x : SecsHidden) : (s.setSecsx p x).cfg = s.cfg := rfl
@[simp] theorem State.setSecsx_gpr (p : Nat) (x : SecsHidden) : (s.setSecsx p x).gpr = s.gpr := rfl
@[simp] theorem State.setSecsx_rflags (p : Nat) (x : SecsHidden) : (s.setSecsx p x).rflags = s.rflags := rfl
@[simp] theorem State.setSecsx_pc (p : Nat) (x : SecsHidden) : (s.setSecsx p x).pc = s.pc := rfl
@[simp] theorem State.setSecsx_ds (p : Nat) (x : SecsHidden) : (s.setSecsx p x).ds = s.ds := rfl
@[simp] theorem State.setSecsx_otherRegs (p : Nat) (x : SecsHidden) : (s.setSecsx p x).otherRegs = s.otherRegs := rfl
@[simp] theorem State.setSecsx_mode64 (p : Nat) (x : SecsHidden) : (s.setSecsx p x).mode64 = s.mode64 := rfl
@[simp] theorem State.setSecsx_vmxNonRoot (p : Nat) (x : SecsHidden) : (s.setSecsx p x).vmxNonRoot = s.vmxNonRoot := rfl
@[simp] theorem State.setSecsx_epcVirtExt (p : Nat) (x : SecsHidden) : (s.setSecsx p x).epcVirtExt = s.epcVirtExt := rfl
@[simp] theorem State.setSecsx_cpl (p : Nat) (x : SecsHidden) : (s.setSecsx p x).cpl = s.cpl := rfl
@[simp] theorem State.setSecsx_inEnclave (p : Nat) (x : SecsHidden) : (s.setSecsx p x).inEnclave = s.inEnclave := rfl
@[simp] theorem State.setSecsx_sgxEnabled (p : Nat) (x : SecsHidden) : (s.setSecsx p x).sgxEnabled = s.sgxEnabled := rfl
@[simp] theorem State.setSecsx_inSmm (p : Nat) (x : SecsHidden) : (s.setSecsx p x).inSmm = s.inSmm := rfl
@[simp] theorem State.setSecsx_interruptPending (p : Nat) (x : SecsHidden) : (s.setSecsx p x).interruptPending = s.interruptPending := rfl
@[simp] theorem State.setSecsx_nextEid (p : Nat) (x : SecsHidden) : (s.setSecsx p x).nextEid = s.nextEid := rfl
@[simp] theorem State.setSecsx_vmcs (p : Nat) (x : SecsHidden) : (s.setSecsx p x).vmcs = s.vmcs := rfl
@[simp] theorem State.setSecsx_paging (p : Nat) (x : SecsHidden) : (s.setSecsx p x).paging = s.paging := rfl
@[simp] theorem State.setSecsx_mem (p : Nat) (x : SecsHidden) : (s.setSecsx p x).mem = s.mem := rfl
@[simp] theorem State.setSecsx_epcm (p : Nat) (x : SecsHidden) : (s.setSecsx p x).epcm = s.epcm := rfl
@[simp] theorem State.setSecsx_secsx (p : Nat) (x : SecsHidden) : (s.setSecsx p x).secsx = tableInsert SecsHidden.empty s.secsx p x := rfl
@[simp] theorem State.setSecsx_freeCount (p : Nat) (x : SecsHidden) : (s.setSecsx p x).freeCount = s.freeCount := rfl

/-! ### lockedXaddNextEid -/

@[simp] theorem State.lockedXaddNextEid_cfg (k : Nat) : (s.lockedXaddNextEid k).2.cfg = s.cfg := rfl
@[simp] theorem State.lockedXaddNextEid_gpr (k : Nat) : (s.lockedXaddNextEid k).2.gpr = s.gpr := rfl
@[simp] theorem State.lockedXaddNextEid_rflags (k : Nat) : (s.lockedXaddNextEid k).2.rflags = s.rflags := rfl
@[simp] theorem State.lockedXaddNextEid_pc (k : Nat) : (s.lockedXaddNextEid k).2.pc = s.pc := rfl
@[simp] theorem State.lockedXaddNextEid_ds (k : Nat) : (s.lockedXaddNextEid k).2.ds = s.ds := rfl
@[simp] theorem State.lockedXaddNextEid_otherRegs (k : Nat) : (s.lockedXaddNextEid k).2.otherRegs = s.otherRegs := rfl
@[simp] theorem State.lockedXaddNextEid_mode64 (k : Nat) : (s.lockedXaddNextEid k).2.mode64 = s.mode64 := rfl
@[simp] theorem State.lockedXaddNextEid_vmxNonRoot (k : Nat) : (s.lockedXaddNextEid k).2.vmxNonRoot = s.vmxNonRoot := rfl
@[simp] theorem State.lockedXaddNextEid_epcVirtExt (k : Nat) : (s.lockedXaddNextEid k).2.epcVirtExt = s.epcVirtExt := rfl
@[simp] theorem State.lockedXaddNextEid_cpl (k : Nat) : (s.lockedXaddNextEid k).2.cpl = s.cpl := rfl
@[simp] theorem State.lockedXaddNextEid_inEnclave (k : Nat) : (s.lockedXaddNextEid k).2.inEnclave = s.inEnclave := rfl
@[simp] theorem State.lockedXaddNextEid_sgxEnabled (k : Nat) : (s.lockedXaddNextEid k).2.sgxEnabled = s.sgxEnabled := rfl
@[simp] theorem State.lockedXaddNextEid_inSmm (k : Nat) : (s.lockedXaddNextEid k).2.inSmm = s.inSmm := rfl
@[simp] theorem State.lockedXaddNextEid_interruptPending (k : Nat) : (s.lockedXaddNextEid k).2.interruptPending = s.interruptPending := rfl
@[simp] theorem State.lockedXaddNextEid_nextEid (k : Nat) : (s.lockedXaddNextEid k).2.nextEid = (s.nextEid + k) % 2 ^ s.cfg.eidBits := rfl
@[simp] theorem State.lockedXaddNextEid_vmcs (k : Nat) : (s.lockedXaddNextEid k).2.vmcs = s.vmcs := rfl
@[simp] theorem State.lockedXaddNextEid_paging (k : Nat) : (s.lockedXaddNextEid k).2.paging = s.paging := rfl
@[simp] theorem State.lockedXaddNextEid_mem (k : Nat) : (s.lockedXaddNextEid k).2.mem = s.mem := rfl
@[simp] theorem State.lockedXaddNextEid_epcm (k : Nat) : (s.lockedXaddNextEid k).2.epcm = s.epcm := rfl
@[simp] theorem State.lockedXaddNextEid_secsx (k : Nat) : (s.lockedXaddNextEid k).2.secsx = s.secsx := rfl
@[simp] theorem State.lockedXaddNextEid_freeCount (k : Nat) : (s.lockedXaddNextEid k).2.freeCount = s.freeCount := rfl

/-! ### advance -/

@[simp] theorem State.advance_cfg (len : Nat) : (s.advance len).cfg = s.cfg := rfl
@[simp] theorem State.advance_gpr (len : Nat) : (s.advance len).gpr = s.gpr := rfl
@[simp] theorem State.advance_rflags (len : Nat) : (s.advance len).rflags = s.rflags := rfl
@[simp] theorem State.advance_pc (len : Nat) : (s.advance len).pc = s.pc + BitVec.ofNat 64 len := rfl
@[simp] theorem State.advance_ds (len : Nat) : (s.advance len).ds = s.ds := rfl
@[simp] theorem State.advance_otherRegs (len : Nat) : (s.advance len).otherRegs = s.otherRegs := rfl
@[simp] theorem State.advance_mode64 (len : Nat) : (s.advance len).mode64 = s.mode64 := rfl
@[simp] theorem State.advance_vmxNonRoot (len : Nat) : (s.advance len).vmxNonRoot = s.vmxNonRoot := rfl
@[simp] theorem State.advance_epcVirtExt (len : Nat) : (s.advance len).epcVirtExt = s.epcVirtExt := rfl
@[simp] theorem State.advance_cpl (len : Nat) : (s.advance len).cpl = s.cpl := rfl
@[simp] theorem State.advance_inEnclave (len : Nat) : (s.advance len).inEnclave = s.inEnclave := rfl
@[simp] theorem State.advance_sgxEnabled (len : Nat) : (s.advance len).sgxEnabled = s.sgxEnabled := rfl
@[simp] theorem State.advance_inSmm (len : Nat) : (s.advance len).inSmm = s.inSmm := rfl
@[simp] theorem State.advance_interruptPending (len : Nat) : (s.advance len).interruptPending = s.interruptPending := rfl
@[simp] theorem State.advance_nextEid (len : Nat) : (s.advance len).nextEid = s.nextEid := rfl
@[simp] theorem State.advance_vmcs (len : Nat) : (s.advance len).vmcs = s.vmcs := rfl
@[simp] theorem State.advance_paging (len : Nat) : (s.advance len).paging = s.paging := rfl
@[simp] theorem State.advance_mem (len : Nat) : (s.advance len).mem = s.mem := rfl
@[simp] theorem State.advance_epcm (len : Nat) : (s.advance len).epcm = s.epcm := rfl
@[simp] theorem State.advance_secsx (len : Nat) : (s.advance len).secsx = s.secsx := rfl
@[simp] theorem State.advance_freeCount (len : Nat) : (s.advance len).freeCount = s.freeCount := rfl

/-! ### setFlags -/

@[simp] theorem State.setFlags_cfg (flags : Word64) : (s.setFlags flags).cfg = s.cfg := rfl
@[simp] theorem State.setFlags_gpr (flags : Word64) : (s.setFlags flags).gpr = s.gpr := rfl
@[simp] theorem State.setFlags_rflags (flags : Word64) : (s.setFlags flags).rflags = flags := rfl
@[simp] theorem State.setFlags_pc (flags : Word64) : (s.setFlags flags).pc = s.pc := rfl
@[simp] theorem State.setFlags_ds (flags : Word64) : (s.setFlags flags).ds = s.ds := rfl
@[simp] theorem State.setFlags_otherRegs (flags : Word64) : (s.setFlags flags).otherRegs = s.otherRegs := rfl
@[simp] theorem State.setFlags_mode64 (flags : Word64) : (s.setFlags flags).mode64 = s.mode64 := rfl
@[simp] theorem State.setFlags_vmxNonRoot (flags : Word64) : (s.setFlags flags).vmxNonRoot = s.vmxNonRoot := rfl
@[simp] theorem State.setFlags_epcVirtExt (flags : Word64) : (s.setFlags flags).epcVirtExt = s.epcVirtExt := rfl
@[simp] theorem State.setFlags_cpl (flags : Word64) : (s.setFlags flags).cpl = s.cpl := rfl
@[simp] theorem State.setFlags_inEnclave (flags : Word64) : (s.setFlags flags).inEnclave = s.inEnclave := rfl
@[simp] theorem State.setFlags_sgxEnabled (flags : Word64) : (s.setFlags flags).sgxEnabled = s.sgxEnabled := rfl
@[simp] theorem State.setFlags_inSmm (flags : Word64) : (s.setFlags flags).inSmm = s.inSmm := rfl
@[simp] theorem State.setFlags_interruptPending (flags : Word64) : (s.setFlags flags).interruptPending = s.interruptPending := rfl
@[simp] theorem State.setFlags_nextEid (flags : Word64) : (s.setFlags flags).nextEid = s.nextEid := rfl
@[simp] theorem State.setFlags_vmcs (flags : Word64) : (s.setFlags flags).vmcs = s.vmcs := rfl
@[simp] theorem State.setFlags_paging (flags : Word64) : (s.setFlags flags).paging = s.paging := rfl
@[simp] theorem State.setFlags_mem (flags : Word64) : (s.setFlags flags).mem = s.mem := rfl
@[simp] theorem State.setFlags_epcm (flags : Word64) : (s.setFlags flags).epcm = s.epcm := rfl
@[simp] theorem State.setFlags_secsx (flags : Word64) : (s.setFlags flags).secsx = s.secsx := rfl
@[simp] theorem State.setFlags_freeCount (flags : Word64) : (s.setFlags flags).freeCount = s.freeCount := rfl

/-! ### setVmcs -/

@[simp] theorem State.setVmcs_cfg (v : Vmcs) : (s.setVmcs v).cfg = s.cfg := rfl
@[simp] theorem State.setVmcs_gpr (v : Vmcs) : (s.setVmcs v).gpr = s.gpr := rfl
@[simp] theorem State.setVmcs_rflags (v : Vmcs) : (s.setVmcs v).rflags = s.rflags := rfl
@[simp] theorem State.setVmcs_pc (v : Vmcs) : (s.setVmcs v).pc = s.pc := rfl
@[simp] theorem State.setVmcs_ds (v : Vmcs) : (s.setVmcs v).ds = s.ds := rfl
@[simp] theorem State.setVmcs_otherRegs (v : Vmcs) : (s.setVmcs v).otherRegs = s.otherRegs := rfl
@[simp] theorem State.setVmcs_mode64 (v : Vmcs) : (s.setVmcs v).mode64 = s.mode64 := rfl
@[simp] theorem State.setVmcs_vmxNonRoot (v : Vmcs) : (s.setVmcs v).vmxNonRoot = s.vmxNonRoot := rfl
@[simp] theorem State.setVmcs_epcVirtExt (v : Vmcs) : (s.setVmcs v).epcVirtExt = s.epcVirtExt := rfl
@[simp] theorem State.setVmcs_cpl (v : Vmcs) : (s.setVmcs v).cpl = s.cpl := rfl
@[simp] theorem State.setVmcs_inEnclave (v : Vmcs) : (s.setVmcs v).inEnclave = s.inEnclave := rfl
@[simp] theorem State.setVmcs_sgxEnabled (v : Vmcs) : (s.setVmcs v).sgxEnabled = s.sgxEnabled := rfl
@[simp] theorem State.setVmcs_inSmm (v : Vmcs) : (s.setVmcs v).inSmm = s.inSmm := rfl
@[simp] theorem State.setVmcs_interruptPending (v : Vmcs) : (s.setVmcs v).interruptPending = s.interruptPending := rfl
@[simp] theorem State.setVmcs_nextEid (v : Vmcs) : (s.setVmcs v).nextEid = s.nextEid := rfl
@[simp] theorem State.setVmcs_vmcs (v : Vmcs) : (s.setVmcs v).vmcs = v := rfl
@[simp] theorem State.setVmcs_paging (v : Vmcs) : (s.setVmcs v).paging = s.paging := rfl
@[simp] theorem State.setVmcs_mem (v : Vmcs) : (s.setVmcs v).mem = s.mem := rfl
@[simp] theorem State.setVmcs_epcm (v : Vmcs) : (s.setVmcs v).epcm = s.epcm := rfl
@[simp] theorem State.setVmcs_secsx (v : Vmcs) : (s.setVmcs v).secsx = s.secsx := rfl
@[simp] theorem State.setVmcs_freeCount (v : Vmcs) : (s.setVmcs v).freeCount = s.freeCount := rfl

/-! ### placeCode -/

@[simp] theorem State.placeCode_cfg (bs : List Byte) : (s.placeCode bs).cfg = s.cfg := rfl
@[simp] theorem State.placeCode_gpr (bs : List Byte) : (s.placeCode bs).gpr = s.gpr := rfl
@[simp] theorem State.placeCode_rflags (bs : List Byte) : (s.placeCode bs).rflags = s.rflags := rfl
@[simp] theorem State.placeCode_pc (bs : List Byte) : (s.placeCode bs).pc = s.pc := rfl
@[simp] theorem State.placeCode_ds (bs : List Byte) : (s.placeCode bs).ds = s.ds := rfl
@[simp] theorem State.placeCode_otherRegs (bs : List Byte) : (s.placeCode bs).otherRegs = s.otherRegs := rfl
@[simp] theorem State.placeCode_mode64 (bs : List Byte) : (s.placeCode bs).mode64 = s.mode64 := rfl
@[simp] theorem State.placeCode_vmxNonRoot (bs : List Byte) : (s.placeCode bs).vmxNonRoot = s.vmxNonRoot := rfl
@[simp] theorem State.placeCode_epcVirtExt (bs : List Byte) : (s.placeCode bs).epcVirtExt = s.epcVirtExt := rfl
@[simp] theorem State.placeCode_cpl (bs : List Byte) : (s.placeCode bs).cpl = s.cpl := rfl
@[simp] theorem State.placeCode_inEnclave (bs : List Byte) : (s.placeCode bs).inEnclave = s.inEnclave := rfl
@[simp] theorem State.placeCode_sgxEnabled (bs : List Byte) : (s.placeCode bs).sgxEnabled = s.sgxEnabled := rfl
@[simp] theorem State.placeCode_inSmm (bs : List Byte) : (s.placeCode bs).inSmm = s.inSmm := rfl
@[simp] theorem State.placeCode_interruptPending (bs : List Byte) : (s.placeCode bs).interruptPending = s.interruptPending := rfl
@[simp] theorem State.placeCode_nextEid (bs : List Byte) : (s.placeCode bs).nextEid = s.nextEid := rfl
@[simp] theorem State.placeCode_vmcs (bs : List Byte) : (s.placeCode bs).vmcs = s.vmcs := rfl
@[simp] theorem State.placeCode_paging (bs : List Byte) : (s.placeCode bs).paging = if s.fetchesFrom s.fetchPlace then s.paging
      else ⟨s.instrPointer, 3, s.fetchPlace, true, false⟩ :: s.paging := rfl
@[simp] theorem State.placeCode_mem (bs : List Byte) : (s.placeCode bs).mem = s.mem.writeBytes s.fetchPlace bs := rfl
@[simp] theorem State.placeCode_epcm (bs : List Byte) : (s.placeCode bs).epcm = s.epcm := rfl
@[simp] theorem State.placeCode_secsx (bs : List Byte) : (s.placeCode bs).secsx = s.secsx := rfl
@[simp] theorem State.placeCode_freeCount (bs : List Byte) : (s.placeCode bs).freeCount = s.freeCount := rfl

@[simp] theorem State.lockedXaddNextEid_fst (k : Nat) : (s.lockedXaddNextEid k).1 = s.nextEid := rfl

end Sys2Proof.Machine
end

