-- ==== Sys2Proof/Laws/Table.lean ====
section
/-! SUPPORT. The laws of the sparse tables: what a lookup gives after an insertion and after storing a run, and that both
keep the canonical form. -/

namespace Sys2Proof.Machine

variable {α : Type}

theorem tableLookup_of_lt_all (d : α) {t : List (Nat × α)} {a : Nat} (h : ∀ e ∈ t, a < e.1) :
    tableLookup d t a = d := by
  cases t with
  | nil => rfl
  | cons e t => simp [tableLookup, h e (by simp)]

theorem tableLookup_append_left (d : α) {t u : List (Nat × α)} {a : Nat} (h : ∀ e ∈ u, a < e.1) :
    tableLookup d (t ++ u) a = tableLookup d t a := by
  induction t with
  | nil => simp [tableLookup, tableLookup_of_lt_all d h]
  | cons e t ih => simp [tableLookup, ih]

theorem tableLookup_append_right (d : α) {t u : List (Nat × α)} {a : Nat} (h : ∀ e ∈ t, e.1 < a) :
    tableLookup d (t ++ u) a = tableLookup d u a := by
  induction t with
  | nil => rfl
  | cons e t ih =>
    have he : e.1 < a := h e (by simp)
    simp [tableLookup, ih fun x hx => h x (by simp [hx]), Nat.not_lt.2 he.le, he.ne']

variable [DecidableEq α]

theorem tableWf_cons {d : α} {k : Nat} {v : α} {t : List (Nat × α)} :
    tableWf d ((k, v) :: t) = true ↔ v ≠ d ∧ (∀ e ∈ t, k < e.1) ∧ tableWf d t = true := by
  simp [tableWf, and_assoc]

theorem tableWf_append {d : α} {t u : List (Nat × α)} :
    tableWf d (t ++ u) = true ↔
      tableWf d t = true ∧ tableWf d u = true ∧ ∀ e ∈ t, ∀ e' ∈ u, e.1 < e'.1 := by
  induction t with
  | nil => simp [tableWf]
  | cons e t ih =>
    obtain ⟨k, v⟩ := e
    simp only [List.cons_append, tableWf_cons, ih, List.mem_append, List.mem_cons]
    constructor
    · rintro ⟨h1, h2, h3, h4, h5⟩
      refine ⟨⟨h1, fun e he => h2 e (.inl he), h3⟩, h4, ?_⟩
      rintro e (rfl | he) e' he'
      · exact h2 e' (.inr he')
      · exact h5 e he e' he'
    · rintro ⟨⟨h1, h2, h3⟩, h4, h5⟩
      refine ⟨h1, ?_, h3, h4, fun e he => h5 e (.inr he)⟩
      rintro e (he | he)
      · exact h2 e he
      · exact h5 (k, v) (.inl rfl) e he

theorem tableWf_filter {d : α} (f : Nat × α → Bool) {t : List (Nat × α)} (h : tableWf d t = true) :
    tableWf d (t.filter f) = true := by
  induction t with
  | nil => rfl
  | cons e t ih =>
    obtain ⟨k, v⟩ := e
    obtain ⟨h1, h2, h3⟩ := tableWf_cons.1 h
    by_cases hf : f (k, v)
    · rw [List.filter_cons_of_pos hf, tableWf_cons]
      exact ⟨h1, fun e he => h2 e (List.mem_of_mem_filter he), ih h3⟩
    · rw [List.filter_cons_of_neg hf]
      exact ih h3

/-! ### Insertion -/

theorem mem_tableInsert {d : α} {t : List (Nat × α)} {a : Nat} {v : α} {e : Nat × α}
    (h : e ∈ tableInsert d t a v) : e ∈ t ∨ e = (a, v) := by
  induction t with
  | nil => simp only [tableInsert] at h; split at h <;> simp_all
  | cons x t ih =>
    obtain ⟨k, w⟩ := x
    simp only [tableInsert] at h
    split at h
    · split at h
      · exact .inl h
      · simpa [or_comm, or_left_comm] using h
    · split at h
      · split at h
        · exact .inl (List.mem_cons_of_mem _ h)
        · rcases List.mem_cons.1 h with h | h
          · exact .inr h
          · exact .inl (List.mem_cons_of_mem _ h)
      · rcases List.mem_cons.1 h with rfl | h
        · simp
        · rcases ih h with h | h <;> simp [h]

theorem tableWf_insert {d : α} {t : List (Nat × α)} (a : Nat) (v : α) (h : tableWf d t = true) :
    tableWf d (tableInsert d t a v) = true := by
  induction t with
  | nil => by_cases hv : v = d <;> simp [tableInsert, tableWf, hv]
  | cons x t ih =>
    obtain ⟨k, w⟩ := x
    obtain ⟨h1, h2, h3⟩ := tableWf_cons.1 h
    simp only [tableInsert]
    split
    · split
      · exact h
      · rename_i hk hv
        refine tableWf_cons.2 ⟨hv, ?_, h⟩
        simp only [List.mem_cons]
        rintro e (rfl | he)
        · exact hk
        · exact hk.trans (h2 e he)
    · split
      · split
        · exact h3
        · rename_i hk hv
          exact tableWf_cons.2 ⟨hv, fun e he => hk ▸ h2 e he, h3⟩
      · refine tableWf_cons.2 ⟨h1, fun e he => ?_, ih h3⟩
        rcases mem_tableInsert he with he | rfl
        · exact h2 e he
        · simp; omega

theorem tableLookup_insert_same {d : α} {t : List (Nat × α)} (a : Nat) (v : α) (h : tableWf d t = true) :
    tableLookup d (tableInsert d t a v) a = v := by
  induction t with
  | nil => by_cases hv : v = d <;> simp [tableInsert, tableLookup, hv]
  | cons x t ih =>
    obtain ⟨k, w⟩ := x
    obtain ⟨-, h2, h3⟩ := tableWf_cons.1 h
    simp only [tableInsert]
    split
    · split <;> simp_all [tableLookup]
    · split
      · split
        · rename_i hk hv
          rw [tableLookup_of_lt_all d fun e he => hk ▸ h2 e he, hv]
        · simp [tableLookup]
      · rename_i hk hk'
        simp [tableLookup, hk, hk', ih h3]

/-- Storing a value other than the default is read back even from a table that is not canonical. -/
theorem tableLookup_insert_self {d : α} {t : List (Nat × α)} (a : Nat) {v : α} (hv : v ≠ d) :
    tableLookup d (tableInsert d t a v) a = v := by
  induction t with
  | nil => simp [tableInsert, tableLookup, hv]
  | cons x t ih =>
    obtain ⟨k, w⟩ := x
    simp only [tableInsert]
    split
    · simp [tableLookup]
    · split
      · simp [tableLookup]
      · rename_i hk hk'
        simp [tableLookup, hk, hk', ih]

theorem tableLookup_insert_ne {d : α} {t : List (Nat × α)} {a b : Nat} (v : α) (h : tableWf d t = true)
    (hab : b ≠ a) : tableLookup d (tableInsert d t a v) b = tableLookup d t b := by
  induction t with
  | nil => by_cases hv : v = d <;> simp [tableInsert, tableLookup, hv, hab]
  | cons x t ih =>
    obtain ⟨k, w⟩ := x
    obtain ⟨-, h2, h3⟩ := tableWf_cons.1 h
    simp only [tableInsert]
    split
    · rename_i hk
      split
      · rfl
      · by_cases hb : b < a
        · simp [tableLookup, hb, hb.trans hk]
        · simp [tableLookup, hb, hab]
    · split
      · rename_i hk hk'
        subst hk'
        by_cases hb : b < a
        · have : tableLookup d t b = d := tableLookup_of_lt_all d fun e he => hb.trans (h2 e he)
          split <;> simp [tableLookup, hb, this]
        · split <;> simp [tableLookup, hb, hab]
      · by_cases hb : b < k
        · simp [tableLookup, hb]
        · by_cases hb' : b = k <;> simp [tableLookup, hb, hb', ih h3]

/-! ### Storing a run of values -/

theorem tableRun_keys {d : α} {vs : List α} {a : Nat} {e : Nat × α} (h : e ∈ tableRun d a vs) :
    a ≤ e.1 ∧ e.1 < a + vs.length := by
  induction vs generalizing a with
  | nil => simp [tableRun] at h
  | cons v vs ih =>
    simp only [tableRun] at h
    split at h
    · have := ih h; simp; omega
    · rcases List.mem_cons.1 h with rfl | h
      · simp
      · have := ih h; simp; omega

theorem tableWf_run {d : α} (vs : List α) (a : Nat) : tableWf d (tableRun d a vs) = true := by
  induction vs generalizing a with
  | nil => rfl
  | cons v vs ih =>
    simp only [tableRun]
    split
    · exact ih _
    · exact tableWf_cons.2 ⟨‹_›, fun e he => by have := (tableRun_keys he).1; omega, ih _⟩

theorem tableLookup_run {d : α} (vs : List α) (a k : Nat) (hk : k < vs.length) :
    tableLookup d (tableRun d a vs) (a + k) = vs.getD k d := by
  induction vs generalizing a k with
  | nil => simp at hk
  | cons v vs ih =>
    have hgt : tableLookup d (tableRun d (a + 1) vs) a = d :=
      tableLookup_of_lt_all d fun e he => by have := (tableRun_keys he).1; omega
    cases k with
    | zero =>
      simp only [tableRun]
      split
      · simp_all
      · simp [tableLookup]
    | succ k =>
      have := ih (a + 1) k (by simpa using hk)
      rw [show a + 1 + k = a + (k + 1) by omega] at this
      simp only [tableRun]
      split
      · simpa using this
      · simpa [tableLookup, show ¬ a + (k + 1) < a by omega] using this

/-- A key that a run was stored at reads as the run's value, from any table. -/
theorem tableLookup_store_in {d : α} (t : List (Nat × α)) (a : Nat) (vs : List α) {k : Nat}
    (hk : k < vs.length) : tableLookup d (tableStore d t a vs) (a + k) = vs.getD k d := by
  rw [tableStore, tableLookup_append_left, tableLookup_append_right, tableLookup_run vs a k hk]
  · intro e he
    have := of_decide_eq_true (List.mem_filter.1 he).2
    omega
  · intro e he
    have := of_decide_eq_true (List.mem_filter.1 he).2
    omega

theorem tableLookup_filter_lt {d : α} {t : List (Nat × α)} {a b : Nat} (h : tableWf d t = true) (hb : b < a) :
    tableLookup d (t.filter fun e => decide (e.1 < a)) b = tableLookup d t b := by
  induction t with
  | nil => rfl
  | cons x t ih =>
    obtain ⟨k, w⟩ := x
    obtain ⟨-, h2, h3⟩ := tableWf_cons.1 h
    by_cases hk : k < a
    · simp [hk, tableLookup, ih h3]
    · have hnil : t.filter (fun e => decide (e.1 < a)) = [] := by
        simp only [List.filter_eq_nil_iff, decide_eq_true_eq]
        intro e he
        have := h2 e he
        omega
      simp [hk, hnil, tableLookup, show b < k by omega]

omit [DecidableEq α] in
theorem tableLookup_filter_ge {d : α} {t : List (Nat × α)} {a b : Nat} (hb : a ≤ b) :
    tableLookup d (t.filter fun e => decide (a ≤ e.1)) b = tableLookup d t b := by
  induction t with
  | nil => rfl
  | cons x t ih =>
    obtain ⟨k, w⟩ := x
    by_cases hk : a ≤ k
    · simp [hk, tableLookup, ih]
    · simp [hk, tableLookup, ih, show ¬ b < k by omega, show b ≠ k by omega]

/-- A key outside the run reads as before. -/
theorem tableLookup_store_out {d : α} {t : List (Nat × α)} {a b : Nat} {vs : List α} (h : tableWf d t = true)
    (hb : b < a ∨ a + vs.length ≤ b) : tableLookup d (tableStore d t a vs) b = tableLookup d t b := by
  rcases hb with hb | hb
  · rw [tableStore, tableLookup_append_left, tableLookup_append_left, tableLookup_filter_lt h hb]
    · intro e he
      have := (tableRun_keys he).1
      omega
    · intro e he
      have := of_decide_eq_true (List.mem_filter.1 he).2
      omega
  · rw [tableStore, tableLookup_append_right, tableLookup_filter_ge hb]
    intro e he
    rcases List.mem_append.1 he with he | he
    · have := of_decide_eq_true (List.mem_filter.1 he).2
      omega
    · have := (tableRun_keys he).2
      omega

theorem tableWf_store {d : α} {t : List (Nat × α)} (a : Nat) (vs : List α) (h : tableWf d t = true) :
    tableWf d (tableStore d t a vs) = true := by
  rw [tableStore, tableWf_append, tableWf_append]
  refine ⟨⟨tableWf_filter _ h, tableWf_run vs a, ?_⟩, tableWf_filter _ h, ?_⟩
  · intro e he e' he'
    have := of_decide_eq_true (List.mem_filter.1 he).2
    have := (tableRun_keys he').1
    omega
  · intro e he e' he'
    have h' := of_decide_eq_true (List.mem_filter.1 he').2
    rcases List.mem_append.1 he with he | he
    · have := of_decide_eq_true (List.mem_filter.1 he).2
      omega
    · have := (tableRun_keys he).2
      omega

/-! ### Bytes and fields -/

theorem leNat_lt (bs : List Byte) : leNat bs < 256 ^ bs.length := by
  induction bs with
  | nil => simp [leNat]
  | cons b bs ih =>
    have := b.isLt
    simp only [leNat, List.length_cons, pow_succ]
    omega

theorem leNat_append (as bs : List Byte) : leNat (as ++ bs) = leNat as + 256 ^ as.length * leNat bs := by
  induction as with
  | nil => simp [leNat]
  | cons a as ih => simp [leNat, ih, pow_succ]; ring

@[simp] theorem length_setFieldFrom (f : FieldPos) (g : Nat → Byte) (i : Nat) (bs : List Byte) :
    (setFieldFrom f g i bs).length = bs.length := by
  induction bs generalizing i with
  | nil => rfl
  | cons b bs ih => simp [setFieldFrom, ih]

@[simp] theorem length_setField (bs : List Byte) (f : FieldPos) (g : Nat → Byte) :
    (setField bs f g).length = bs.length := length_setFieldFrom f g 0 bs

theorem getD_setFieldFrom (f : FieldPos) (g : Nat → Byte) (bs : List Byte) (i k : Nat) (hk : k < bs.length) :
    (setFieldFrom f g i bs).getD k 0#8 =
      if f.off ≤ i + k ∧ i + k < f.off + f.len then g (i + k - f.off) else bs.getD k 0#8 := by
  induction bs generalizing i k with
  | nil => simp at hk
  | cons b bs ih =>
    cases k with
    | zero => simp [setFieldFrom]
    | succ k =>
      have := ih (i + 1) k (by simpa using hk)
      rw [show i + 1 + k = i + (k + 1) by omega] at this
      simpa [setFieldFrom] using this

/-- A byte of a structure after one of its fields was written. -/
theorem getD_setField (bs : List Byte) (f : FieldPos) (g : Nat → Byte) {k : Nat} (hk : k < bs.length) :
    (setField bs f g).getD k 0#8 =
      if f.off ≤ k ∧ k < f.off + f.len then g (k - f.off) else bs.getD k 0#8 := by
  have h := getD_setFieldFrom f g bs 0 k hk
  rw [Nat.zero_add] at h
  exact h

end Sys2Proof.Machine
end

