-- ==== Sys2Proof/Laws/Memory.lean ====
section
/-! SUPPORT. The laws of memory: a read after a write, a write leaves every other byte alone, every memory operation keeps
the canonical form; and the same for the EPCM and SECSX through their accessors. -/

namespace Sys2Proof.Machine

/-! ### Bytes -/

@[simp] theorem Memory.length_readBytes (m : Memory) (a n : Nat) : (m.readBytes a n).length = n := by
  induction n generalizing a with
  | zero => rfl
  | succ n ih => simp [Memory.readBytes, ih]

theorem Memory.getD_readBytes (m : Memory) (a n k : Nat) (hk : k < n) :
    (m.readBytes a n).getD k 0#8 = m.read (a + k) := by
  induction n generalizing a k with
  | zero => omega
  | succ n ih =>
    cases k with
    | zero => simp [Memory.readBytes]
    | succ k =>
      have h := ih (a + 1) k (by omega)
      rw [show a + 1 + k = a + (k + 1) by omega] at h
      exact h

/-- Memories that agree on a range give the same bytes there. -/
theorem Memory.readBytes_congr {m m' : Memory} {a n : Nat} (h : ∀ k < n, m.read (a + k) = m'.read (a + k)) :
    m.readBytes a n = m'.readBytes a n := by
  induction n generalizing a with
  | zero => rfl
  | succ n ih =>
    have h0 : m.read a = m'.read a := h 0 (by omega)
    simp only [Memory.readBytes, h0, List.cons.injEq, true_and]
    exact ih fun k hk => by
      have := h (k + 1) (by omega)
      rwa [show a + (k + 1) = a + 1 + k by omega] at this

theorem Memory.read_writeBytes_in (m : Memory) (a : Nat) (bs : List Byte) {k : Nat} (hk : k < bs.length) :
    (m.writeBytes a bs).read (a + k) = bs.getD k 0#8 :=
  tableLookup_store_in m a bs hk

theorem Memory.read_writeBytes_out {m : Memory} (hm : m.wf = true) {a b : Nat} {bs : List Byte}
    (hb : b < a ∨ a + bs.length ≤ b) : (m.writeBytes a bs).read b = m.read b :=
  tableLookup_store_out hm hb

theorem Memory.wf_writeBytes {m : Memory} (hm : m.wf = true) (a : Nat) (bs : List Byte) :
    (m.writeBytes a bs).wf = true :=
  tableWf_store a bs hm

theorem State.reset_mem_wf : State.reset.mem.wf = true := rfl

/-! ### Pages -/

theorem frameOf_add {p k : Nat} (hk : k < 4096) : frameOf (p * 4096 + k) = p := by
  unfold frameOf; omega

/-- A write of at most a page to page `p` leaves the bytes of every other page alone. -/
theorem Memory.read_writePage_other {m : Memory} (hm : m.wf = true) {p b : Nat} {bs : List Byte}
    (hlen : bs.length ≤ 4096) (hb : frameOf b ≠ p) : (m.writeBytes (p * 4096) bs).read b = m.read b := by
  refine Memory.read_writeBytes_out hm ?_
  unfold frameOf at hb
  omega

/-- A structure of at most a page whose first and last bytes lie outside page `p` has no byte in it. -/
theorem frame_between {a n k p : Nat} (hn : n ≤ 4096) (hk : k < n) (h0 : frameOf a ≠ p)
    (h1 : frameOf (a + n - 1) ≠ p) : frameOf (a + k) ≠ p := by
  unfold frameOf at *
  omega

/-- A structure whose first and last bytes lie outside page `p` reads the same after a write to page `p`. -/
theorem Memory.readBytes_writePage_other {m : Memory} (hm : m.wf = true) {p a n : Nat} {bs : List Byte}
    (hlen : bs.length ≤ 4096) (hn : n ≤ 4096) (h0 : frameOf a ≠ p) (h1 : frameOf (a + n - 1) ≠ p) :
    (m.writeBytes (p * 4096) bs).readBytes a n = m.readBytes a n :=
  Memory.readBytes_congr fun _ hk => Memory.read_writePage_other hm hlen (frame_between hn hk h0 h1)

/-! ### The EPCM and SECSX -/

theorem State.epcmAt_setEpcm_same (s : State) (p : Nat) {e : EpcmEntry} (he : e ≠ EpcmEntry.empty) :
    (s.setEpcm p e).epcmAt p = e :=
  tableLookup_insert_self p he

theorem State.epcmAt_setEpcm_ne {s : State} (hs : tableWf EpcmEntry.empty s.epcm = true) {p q : Nat} (e : EpcmEntry)
    (hq : q ≠ p) : (s.setEpcm p e).epcmAt q = s.epcmAt q :=
  tableLookup_insert_ne e hs hq

theorem State.secsxAt_setSecsx_same (s : State) (p : Nat) {x : SecsHidden} (hx : x ≠ SecsHidden.empty) :
    (s.setSecsx p x).secsxAt p = x :=
  tableLookup_insert_self p hx

theorem State.secsxAt_setSecsx_ne {s : State} (hs : tableWf SecsHidden.empty s.secsx = true) {p q : Nat}
    (x : SecsHidden) (hq : q ≠ p) : (s.setSecsx p x).secsxAt q = s.secsxAt q :=
  tableLookup_insert_ne x hs hq

end Sys2Proof.Machine
end

