-- ==== Sys2Proof/Laws/Ecreate.lean ====
section
/-! SUPPORT. What the shared operations of ENCLS[ECREATE] can answer, once each: provers cite these and do not unfold. -/

namespace Sys2Proof.Machine

/-! ### Steps that can end -/

theorem ensure_ok {ok : Bool} {e : Ending} {u : Unit} : ensure ok e = .ok u ↔ ok = true := by
  cases ok <;> simp [ensure]

theorem ensure_error {ok : Bool} {e d : Ending} : ensure ok e = .error d ↔ ok = false ∧ d = e := by
  cases ok <;> simp [ensure, eq_comm (a := d)]

/-- A sequence of two steps answers ok when both do. -/
theorem except_bind_ok {ε α β : Type} {x : Except ε α} {f : α → Except ε β} {b : β} :
    (x >>= f) = .ok b ↔ ∃ a, x = .ok a ∧ f a = .ok b := by
  cases x <;> simp [bind, Except.bind]

/-- A sequence of two steps ends where the first ends, or where the second does after it. -/
theorem except_bind_error {ε α β : Type} {x : Except ε α} {f : α → Except ε β} {e : ε} :
    (x >>= f) = .error e ↔ x = .error e ∨ ∃ a, x = .ok a ∧ f a = .error e := by
  cases x <;> simp [bind, Except.bind]

/-- A read that succeeds: the check, the place outside the EPC, the bytes. -/
theorem memRead_ok {s : State} {site : PfSite} {what : SourceStructure} {e : Word64} {n : Nat} {bs : List Byte} :
    s.memReadNonEnclave site what e n = .ok bs ↔
      s.dsOk e n = true ∧ ∃ a, SourceAt s e n a ∧ bs = s.mem.readBytes a n := by
  unfold State.memReadNonEnclave
  split
  · rename_i hd
    split
    · rename_i ht
      simp only [reduceCtorEq, false_iff, not_and, not_exists]
      rintro - a ⟨h, -⟩
      simp [ht] at h
    · rename_i a ht
      simp only [Bool.or_eq_true]
      constructor
      · intro h
        split at h
        · simp at h
        · rename_i hf
          simp only [not_or, Bool.not_eq_true] at hf
          exact ⟨hd, a, ⟨ht, hf.1, hf.2⟩, by simpa using h.symm⟩
      · rintro ⟨-, a', ⟨h1, h2, h3⟩, rfl⟩
        obtain rfl : a = a' := by simpa [ht] using h1
        simp [h2, h3]
  · simp_all

/-- Every way a read ends: the check, the translation, the EPC. -/
theorem memRead_error {s : State} {site : PfSite} {what : SourceStructure} {e : Word64} {n : Nat} {d : Ending} :
    s.memReadNonEnclave site what e n = .error d ↔
      (s.dsOk e n = false ∧ d = .gp) ∨
      (s.dsOk e n = true ∧ s.translate (s.lin e) .read = none ∧ d = .pf site (s.lin e)) ∨
      (s.dsOk e n = true ∧ d = .refuse (.sourceInsideEpc what) ∧ ∃ a, s.translate (s.lin e) .read = some a ∧
        (frameInEpc s.cfg (frameOf a) = true ∨ frameInEpc s.cfg (frameOf (a + n - 1)) = true)) := by
  unfold State.memReadNonEnclave
  by_cases hd : s.dsOk e n = true
  · cases ht : s.translate (s.lin e) .read with
    | none => simpa [hd] using eq_comm
    | some a =>
      by_cases hf : frameInEpc s.cfg (frameOf a) = true ∨ frameInEpc s.cfg (frameOf (a + n - 1)) = true
      · simpa [hd, hf] using eq_comm
      · simp [hd, hf]
  · simpa [hd] using eq_comm

/-- The destination resolves inside the EPC. -/
theorem epcPage_ok {s : State} {e : Word64} {pa : Nat} :
    s.epcPage e = .ok pa ↔
      s.translate (s.lin e) .write = some pa ∧ frameInEpc s.cfg (frameOf pa) = true := by
  unfold State.epcPage
  split
  · simp_all
  · rename_i a ht
    split
    · rename_i hf
      simp only [Except.ok.injEq, ht, Option.some.injEq]
      exact ⟨fun h => ⟨h, h ▸ hf⟩, fun h => h.1⟩
    · rename_i hf
      simp only [reduceCtorEq, ht, Option.some.injEq, false_iff, not_and]
      rintro rfl
      exact hf

/-- Every way the resolution of the destination ends. -/
theorem epcPage_error {s : State} {e : Word64} {d : Ending} :
    s.epcPage e = .error d ↔
      (s.translate (s.lin e) .write = none ∧ d = .pf .destPaging (s.lin e)) ∨
      ∃ pa, s.translate (s.lin e) .write = some pa ∧ frameInEpc s.cfg (frameOf pa) = false ∧
        d = .pf .destOutsideEpc (s.lin e) := by
  unfold State.epcPage
  cases ht : s.translate (s.lin e) .write with
  | none => simpa using eq_comm
  | some pa =>
    by_cases hf : frameInEpc s.cfg (frameOf pa) = true
    · simp [hf]
    · simpa [hf] using eq_comm

theorem addrOk_iff {s : State} {e : Word64} {n a : Nat} :
    s.addrOk e n a = true ↔ s.dsOk e n = true ∧ (s.lin e).toNat % a = 0 := by
  simp [State.addrOk, State.aligned]

/-! ### The premises -/

theorem eax_eq_zero_iff {s : State} : s.eax = 0#32 ↔ s.gpr.rax.toNat % 2 ^ 32 = 0 := by
  rw [State.eax, ← BitVec.toNat_inj]
  simp

theorem pcFits_iff {s : State} : s.pcOverflows (instrLen .enclsEcreate) = false ↔
    s.instrPointer.toNat + 3 < (if s.mode64 then 2 ^ 64 else 2 ^ 32) := by
  simp [State.pcOverflows, instrLen]

/-- No premise is missed exactly when they all hold. -/
theorem premiseRefusal_none {s : State} : premiseRefusal s = none ↔ Premises s := by
  unfold premiseRefusal
  constructor
  · intro h
    repeat' split at h
    all_goals simp_all
    rename_i h1 h2 h3 h4 h5 h6 h7
    exact ⟨eax_eq_zero_iff.1 h1, h2, h3, h4.1, h4.2, h5, h6, pcFits_iff.1 h7⟩
  · rintro ⟨h1, h2, h3, h4, h5, h6, h7, h8⟩
    simp [eax_eq_zero_iff.2 h1, h2, h3, h4, h5, h6, h7, pcFits_iff.2 h8]

/-! ### The checks before the copy -/

/-- Within the premises, the checks before the copy answer ok exactly when the copy is made, with what it reads. -/
theorem ecreateChecks_ok {s : State} (hp : Premises s) {t : CopyPlan} :
    ecreateChecks s = .ok t ↔ Copied s t.pa t.secs := by
  simp only [ecreateChecks, except_bind_ok, ensure_ok, epcPage_ok, memRead_ok, addrOk_iff, sourceAddrsOk,
    unusedFieldsZero, secinfoOk, Bool.and_eq_true, beq_iff_eq, Bool.not_eq_true', pure, Except.pure, Except.ok.injEq]
  constructor
  · rintro ⟨_, ⟨h1, h2⟩, _, ⟨h3, h4⟩, pa, ⟨h5, h6⟩, pi, ⟨-, a, ha, hpi⟩, _, ⟨⟨h7, h8⟩, h9, h10⟩, _, ⟨h11, h12⟩, si,
      ⟨-, b, hb, hsi⟩, _, ⟨h13, h14⟩, _, h15, _, h16, page, ⟨-, c, hc, hpage⟩, rfl⟩
    have r1 : ReachesDest s := ⟨hp, h1, h2, h3, h4⟩
    have r2 : ReachesPageinfo s pa := ⟨r1, h5, h6⟩
    have r3 : ReachesFields s pa pi := ⟨r2, a, ha, hpi⟩
    have r4 : ReachesSecinfo s pa pi := ⟨r3, h7, h8, h9, h10, h11, h12⟩
    have r5 : ReachesSecinfoContent s pa pi si := ⟨r4, b, hb, hsi⟩
    exact ⟨pi, ⟨⟨r4, si, r5, h13, h14⟩, h15, h16⟩, c, hc, hpage⟩
  · rintro ⟨pi, ⟨⟨r4, si, r5, h13, h14⟩, h15, h16⟩, c, hc, hpage⟩
    obtain ⟨-, b, hb, hsi⟩ := r5
    obtain ⟨⟨⟨⟨-, h1, h2, h3, h4⟩, h5, h6⟩, a, ha, hpi⟩, h7, h8, h9, h10, h11, h12⟩ := r4
    exact ⟨(), ⟨h1, h2⟩, (), ⟨h3, h4⟩, t.pa, ⟨h5, h6⟩, pi, ⟨h1, a, ha, hpi⟩, (), ⟨⟨h7, h8⟩, h9, h10⟩, (),
      ⟨h11, h12⟩, si, ⟨h9, b, hb, hsi⟩, (), ⟨h13, h14⟩, (), h15, (), h16, t.secs, ⟨h7, c, hc, hpage⟩, rfl⟩

theorem Copied.premises {s : State} {pa : Nat} {page : List Byte} (h : Copied s pa page) : Premises s := by
  obtain ⟨_, h, -⟩ := h
  exact h.toPremises

theorem Copied.length {s : State} {pa : Nat} {page : List Byte} (h : Copied s pa page) : page.length = 4096 := by
  obtain ⟨_, -, a, -, rfl⟩ := h
  simp

/-- Every ending before the copy, one constructor for each cause, with the conditions under which it is met. -/
inductive EarlyEnding (s : State) : Ending → Prop
  /-- R111. -/
  | pageinfoAddress (h : ¬ (s.dsOk s.eaRbx 32 = true ∧ (s.lin s.eaRbx).toNat % 32 = 0)) : EarlyEnding s .gp
  /-- R112. -/
  | destAddress (h0 : s.dsOk s.eaRbx 32 = true ∧ (s.lin s.eaRbx).toNat % 32 = 0)
      (h : ¬ (s.dsOk s.eaRcx 4096 = true ∧ (s.lin s.eaRcx).toNat % 4096 = 0)) : EarlyEnding s .gp
  /-- R113. -/
  | destPaging (h0 : ReachesDest s) (h : s.translate (s.lin s.eaRcx) .write = none) :
      EarlyEnding s (.pf .destPaging (s.lin s.eaRcx))
  /-- R113. -/
  | destOutside (h0 : ReachesDest s) (pa : Nat) (h : s.translate (s.lin s.eaRcx) .write = some pa)
      (h1 : frameInEpc s.cfg (frameOf pa) = false) : EarlyEnding s (.pf .destOutsideEpc (s.lin s.eaRcx))
  /-- R114. -/
  | pageinfoPaging (pa : Nat) (h0 : ReachesPageinfo s pa) (h : s.translate (s.lin s.eaRbx) .read = none) :
      EarlyEnding s (.pf .pageinfoRead (s.lin s.eaRbx))
  /-- R114, R126. -/
  | pageinfoInside (pa : Nat) (h0 : ReachesPageinfo s pa) (a : Nat) (h : s.translate (s.lin s.eaRbx) .read = some a)
      (h1 : frameInEpc s.cfg (frameOf a) = true ∨ frameInEpc s.cfg (frameOf (a + 32 - 1)) = true) :
      EarlyEnding s (.refuse (.sourceInsideEpc .pageinfo))
  /-- R116. -/
  | sourceAddress (pa : Nat) (pageinfo : List Byte) (h0 : ReachesFields s pa pageinfo)
      (h : sourceAddrsOk s pageinfo = false) : EarlyEnding s .gp
  /-- R117. -/
  | unusedFields (pa : Nat) (pageinfo : List Byte) (h0 : ReachesFields s pa pageinfo)
      (h1 : sourceAddrsOk s pageinfo = true) (h : unusedFieldsZero s.cfg pageinfo = false) : EarlyEnding s .gp
  /-- R118. -/
  | secinfoPaging (pa : Nat) (pageinfo : List Byte) (h0 : ReachesSecinfo s pa pageinfo)
      (h : s.translate (s.lin (tmpSecinfo s pageinfo)) .read = none) :
      EarlyEnding s (.pf .secinfoRead (s.lin (tmpSecinfo s pageinfo)))
  /-- R118, R126. -/
  | secinfoInside (pa : Nat) (pageinfo : List Byte) (h0 : ReachesSecinfo s pa pageinfo) (a : Nat)
      (h : s.translate (s.lin (tmpSecinfo s pageinfo)) .read = some a)
      (h1 : frameInEpc s.cfg (frameOf a) = true ∨ frameInEpc s.cfg (frameOf (a + 64 - 1)) = true) :
      EarlyEnding s (.refuse (.sourceInsideEpc .secinfo))
  /-- R119. -/
  | secinfoContent (pa : Nat) (pageinfo content : List Byte) (h0 : ReachesSecinfoContent s pa pageinfo content)
      (h : secinfoOk s.cfg content = false) : EarlyEnding s .gp
  /-- R121. -/
  | entryInUse (pa : Nat) (pageinfo : List Byte) (h0 : ReachesEntry s pa pageinfo)
      (h : (s.epcmAt (frameOf pa)).lockHeld = true) : EarlyEnding s (entryInUseEnding s pa)
  /-- R123. -/
  | entryValid (pa : Nat) (pageinfo : List Byte) (h0 : ReachesEntry s pa pageinfo)
      (h1 : (s.epcmAt (frameOf pa)).lockHeld = false) (h : (s.epcmAt (frameOf pa)).valid = true) :
      EarlyEnding s (.pf .destValid (s.lin s.eaRcx))
  /-- R128. -/
  | sourcePaging (pa : Nat) (pageinfo : List Byte) (h0 : ReachesCopy s pa pageinfo)
      (h : s.translate (s.lin (tmpSrcpge s pageinfo)) .read = none) :
      EarlyEnding s (.pf .sourceRead (s.lin (tmpSrcpge s pageinfo)))
  /-- R128, R126. -/
  | sourceInside (pa : Nat) (pageinfo : List Byte) (h0 : ReachesCopy s pa pageinfo) (a : Nat)
      (h : s.translate (s.lin (tmpSrcpge s pageinfo)) .read = some a)
      (h1 : frameInEpc s.cfg (frameOf a) = true ∨ frameInEpc s.cfg (frameOf (a + 4096 - 1)) = true) :
      EarlyEnding s (.refuse (.sourceInsideEpc .sourcePage))

theorem sourceAddrsOk_iff {s : State} {pageinfo : List Byte} : sourceAddrsOk s pageinfo = true ↔
    (s.dsOk (tmpSrcpge s pageinfo) 4096 = true ∧ (s.lin (tmpSrcpge s pageinfo)).toNat % 4096 = 0) ∧
      s.dsOk (tmpSecinfo s pageinfo) 64 = true ∧ (s.lin (tmpSecinfo s pageinfo)).toNat % 64 = 0 := by
  simp only [sourceAddrsOk, Bool.and_eq_true, addrOk_iff]

theorem unusedFieldsZero_iff {c : Config} {pageinfo : List Byte} : unusedFieldsZero c pageinfo = true ↔
    fieldNat pageinfo c.pageinfo.linaddr = 0 ∧ fieldNat pageinfo c.pageinfo.secs = 0 := by
  simp only [unusedFieldsZero, Bool.and_eq_true, beq_iff_eq]

theorem secinfoOk_iff {c : Config} {content : List Byte} : secinfoOk c content = true ↔
    leNat content &&& c.secinfo.reserved.toNat = 0 ∧ secinfoPt c content = c.ptSecs.toNat := by
  simp only [secinfoOk, secinfoPt, Bool.and_eq_true, beq_iff_eq]

/-- Within the premises, the checks before the copy end in one of the named ways. -/
theorem ecreateChecks_error {s : State} (hp : Premises s) {d : Ending} (h : ecreateChecks s = .error d) :
    EarlyEnding s d := by
  simp only [ecreateChecks, except_bind_error, ensure_error, ensure_ok, epcPage_error, epcPage_ok, memRead_ok,
    Bool.not_eq_false', Bool.not_eq_true', pure, Except.pure, reduceCtorEq, and_false, exists_false, or_false] at h
  rcases h with ⟨h, rfl⟩ | ⟨_, hb, h⟩
  · exact .pageinfoAddress fun h' => by simp [addrOk_iff.2 h'] at h
  have hb' := addrOk_iff.1 hb
  rcases h with ⟨h, rfl⟩ | ⟨_, hc, h⟩
  · exact .destAddress hb' fun h' => by simp [addrOk_iff.2 h'] at h
  have hc' := addrOk_iff.1 hc
  have r1 : ReachesDest s := ⟨hp, hb'.1, hb'.2, hc'.1, hc'.2⟩
  rcases h with (⟨h, rfl⟩ | ⟨pa, h, h', rfl⟩) | ⟨pa, ⟨h5, h6⟩, h⟩
  · exact .destPaging r1 h
  · exact .destOutside r1 pa h h'
  have r2 : ReachesPageinfo s pa := ⟨r1, h5, h6⟩
  rcases h with h | ⟨pi, ⟨-, a, ha, hpi⟩, h⟩
  · rcases memRead_error.1 h with ⟨hn, -⟩ | ⟨-, hn, rfl⟩ | ⟨-, rfl, a, hn, h'⟩
    · simp [hb'.1] at hn
    · exact .pageinfoPaging pa r2 hn
    · exact .pageinfoInside pa r2 a hn h'
  have r3 : ReachesFields s pa pi := ⟨r2, a, ha, hpi⟩
  rcases h with ⟨h, rfl⟩ | ⟨_, hs, h⟩
  · exact .sourceAddress pa pi r3 h
  rcases h with ⟨h, rfl⟩ | ⟨_, hu, h⟩
  · exact .unusedFields pa pi r3 hs h
  obtain ⟨⟨h7, h8⟩, h9, h10⟩ := sourceAddrsOk_iff.1 hs
  obtain ⟨h11, h12⟩ := unusedFieldsZero_iff.1 hu
  have r4 : ReachesSecinfo s pa pi := ⟨r3, h7, h8, h9, h10, h11, h12⟩
  rcases h with h | ⟨si, ⟨-, b, hb, hsi⟩, h⟩
  · rcases memRead_error.1 h with ⟨hn, -⟩ | ⟨-, hn, rfl⟩ | ⟨-, rfl, a, hn, h'⟩
    · simp [h9] at hn
    · exact .secinfoPaging pa pi r4 hn
    · exact .secinfoInside pa pi r4 a hn h'
  have r5 : ReachesSecinfoContent s pa pi si := ⟨r4, b, hb, hsi⟩
  rcases h with ⟨h, rfl⟩ | ⟨_, hk, h⟩
  · exact .secinfoContent pa pi si r5 h
  have r6 : ReachesEntry s pa pi := ⟨r4, si, r5, secinfoOk_iff.1 hk⟩
  rcases h with ⟨h, rfl⟩ | ⟨_, hl, h⟩
  · exact .entryInUse pa pi r6 h
  rcases h with ⟨h, rfl⟩ | ⟨_, hv, h⟩
  · exact .entryValid pa pi r6 hl h
  have r7 : ReachesCopy s pa pi := ⟨r6, hl, hv⟩
  rcases memRead_error.1 h with ⟨hn, -⟩ | ⟨-, hn, rfl⟩ | ⟨-, rfl, a, hn, h'⟩
  · simp [h7] at hn
  · exact .sourcePaging pa pi r7 hn
  · exact .sourceInside pa pi r7 a hn h'

/-! ### The instruction -/

/-- Outside the premises the meaning refuses; within them it is the body. -/
theorem execEnclsEcreate_premises {s : State} (hp : Premises s) : execEnclsEcreate s = ecreateBody s := by
  rw [execEnclsEcreate, premiseRefusal_none.2 hp]

/-- The shape of everything the instruction can answer: a refusal outside the premises, an ending before the copy, the
fault after the copy, or the commit. -/
theorem execEnclsEcreate_cases (s : State) :
    (¬ Premises s ∧ ∃ r, execEnclsEcreate s = .refused r) ∨
    (∃ d, Premises s ∧ EarlyEnding s d ∧ execEnclsEcreate s = endWith s d) ∨
    (∃ pa page, Copied s pa page ∧ secsRejected s.cfg page = true ∧
      execEnclsEcreate s = endWith (s.forgetEpcData (frameOf pa)) .gp) ∨
    ∃ pa page, Copied s pa page ∧ secsRejected s.cfg page = false ∧
      execEnclsEcreate s = .next (ecreateCommit s ⟨pa, page⟩) := by
  by_cases hp : Premises s
  · rw [execEnclsEcreate_premises hp, ecreateBody]
    cases hc : ecreateChecks s with
    | error d => exact .inr (.inl ⟨d, hp, ecreateChecks_error hp hc, rfl⟩)
    | ok t =>
      have hcop := (ecreateChecks_ok hp).1 hc
      cases hr : secsRejected s.cfg t.secs with
      | true => exact .inr (.inr (.inl ⟨t.pa, t.secs, hcop, hr, by simp [hr, planFrame]⟩))
      | false => exact .inr (.inr (.inr ⟨t.pa, t.secs, hcop, hr, by simp [hr]⟩))
  · refine .inl ⟨hp, ?_⟩
    cases hr : premiseRefusal s with
    | none => exact absurd (premiseRefusal_none.1 hr) hp
    | some r => exact ⟨r, by rw [execEnclsEcreate, hr]⟩

/-- What the instruction does once the copy is made. -/
theorem execEnclsEcreate_copied {s : State} {pa : Nat} {page : List Byte} (h : Copied s pa page) :
    execEnclsEcreate s =
      if secsRejected s.cfg page then endWith (s.forgetEpcData (frameOf pa)) .gp
      else .next (ecreateCommit s ⟨pa, page⟩) := by
  rw [execEnclsEcreate_premises h.premises, ecreateBody, (ecreateChecks_ok h.premises (t := ⟨pa, page⟩)).2 h]
  rfl

/-- The copy is made of one page to one place. -/
theorem Copied.unique {s : State} {pa pa' : Nat} {page page' : List Byte} (h : Copied s pa page)
    (h' : Copied s pa' page') : pa = pa' ∧ page = page' := by
  have e := (ecreateChecks_ok h.premises (t := ⟨pa, page⟩)).2 h
  have e' := (ecreateChecks_ok h.premises (t := ⟨pa', page'⟩)).2 h'
  simpa using e.symm.trans e'

/-! ### The commit, field by field -/

section
variable (s : State) (t : CopyPlan)

@[simp] theorem ecreateCommit_cfg : (ecreateCommit s t).cfg = s.cfg := rfl
@[simp] theorem ecreateCommit_gpr : (ecreateCommit s t).gpr = s.gpr := rfl
@[simp] theorem ecreateCommit_rflags : (ecreateCommit s t).rflags = s.rflags := rfl
@[simp] theorem ecreateCommit_pc : (ecreateCommit s t).pc = s.pc + 3#64 := rfl
@[simp] theorem ecreateCommit_ds : (ecreateCommit s t).ds = s.ds := rfl
@[simp] theorem ecreateCommit_otherRegs : (ecreateCommit s t).otherRegs = s.otherRegs := rfl
@[simp] theorem ecreateCommit_mode64 : (ecreateCommit s t).mode64 = s.mode64 := rfl
@[simp] theorem ecreateCommit_vmxNonRoot : (ecreateCommit s t).vmxNonRoot = s.vmxNonRoot := rfl
@[simp] theorem ecreateCommit_epcVirtExt : (ecreateCommit s t).epcVirtExt = s.epcVirtExt := rfl
@[simp] theorem ecreateCommit_cpl : (ecreateCommit s t).cpl = s.cpl := rfl
@[simp] theorem ecreateCommit_inEnclave : (ecreateCommit s t).inEnclave = s.inEnclave := rfl
@[simp] theorem ecreateCommit_sgxEnabled : (ecreateCommit s t).sgxEnabled = s.sgxEnabled := rfl
@[simp] theorem ecreateCommit_inSmm : (ecreateCommit s t).inSmm = s.inSmm := rfl
@[simp] theorem ecreateCommit_interruptPending : (ecreateCommit s t).interruptPending = s.interruptPending := rfl
@[simp] theorem ecreateCommit_nextEid : (ecreateCommit s t).nextEid = (s.nextEid + 1) % 2 ^ s.cfg.eidBits := rfl
@[simp] theorem ecreateCommit_vmcs : (ecreateCommit s t).vmcs = s.vmcs := rfl
@[simp] theorem ecreateCommit_paging : (ecreateCommit s t).paging = s.paging := rfl
@[simp] theorem ecreateCommit_mem : (ecreateCommit s t).mem =
    s.mem.writeBytes (frameOf t.pa * 4096) (committedPage s.cfg t.secs) := rfl
@[simp] theorem ecreateCommit_epcm : (ecreateCommit s t).epcm =
    tableInsert EpcmEntry.empty s.epcm (frameOf t.pa) (createdEntry s.cfg) := rfl
@[simp] theorem ecreateCommit_secsx : (ecreateCommit s t).secsx =
    tableInsert SecsHidden.empty s.secsx (frameOf t.pa) (createdHidden s.cfg t s.nextEid) := rfl
@[simp] theorem ecreateCommit_freeCount : (ecreateCommit s t).freeCount = s.freeCount := rfl

end

theorem createdEntry_ne_empty (c : Config) : createdEntry c ≠ EpcmEntry.empty := by
  simp [createdEntry, EpcmEntry.empty]

theorem createdHidden_ne_empty (c : Config) (t : CopyPlan) (eid : Nat) :
    createdHidden c t eid ≠ SecsHidden.empty := by
  simp [createdHidden, SecsHidden.empty]

@[simp] theorem length_committedPage (c : Config) (page : List Byte) :
    (committedPage c page).length = page.length := by
  simp [committedPage]

end Sys2Proof.Machine
end

