-- ==== Sys2Proof/Laws/Secs.lean ====
section
/-! SUPPORT. What each check on the SECS says, once each; `secsRejected_false_iff` joins them, and provers cite it. -/

namespace Sys2Proof.Machine

/-- At most one bit of a word that is not zero is set exactly when it is a power of two (R144). -/
theorem popcnt_le_one_iff (x : Word64) (h : x ≠ 0#64) : popcnt x ≤ 1 ↔ ∃ k, x.toNat = 2 ^ k := by
  have hcount : popcnt x = ((List.range 64).filter fun i => x.getLsbD i).length := List.countP_eq_length_filter
  constructor
  · intro hp
    rw [hcount] at hp
    have hex : ∃ k, x.getLsbD k = true := by
      by_contra hn
      push Not at hn
      exact h (BitVec.eq_of_getLsbD_eq fun i _ => by simp [hn i])
    obtain ⟨k, hk⟩ := hex
    have hk64 : k < 64 := BitVec.lt_of_getLsbD hk
    refine ⟨k, ?_⟩
    have huniq : ∀ j, x.getLsbD j = true → j = k := by
      intro j hj
      have hj64 : j < 64 := BitVec.lt_of_getLsbD hj
      by_contra hne
      have hnd : ((List.range 64).filter fun i => x.getLsbD i).Nodup := List.Nodup.filter _ List.nodup_range
      have hsub : [j, k] ⊆ (List.range 64).filter fun i => x.getLsbD i := by
        intro y hy; simp at hy; rcases hy with rfl | rfl <;> simp [*]
      have := (List.subperm_of_subset (by simp [hne]) hsub).length_le
      simp at this; omega
    apply Nat.eq_of_testBit_eq
    intro i
    rw [Nat.testBit_two_pow]
    have : x.toNat.testBit i = x.getLsbD i := rfl
    rw [this]
    by_cases hi : k = i
    · subst hi; simp [hk]
    · simp only [hi, decide_false]
      by_contra hc
      exact hi (huniq i (by simpa using hc)).symm
  · rintro ⟨k, hk⟩
    rw [hcount]
    have : ((List.range 64).filter fun i => x.getLsbD i) ⊆ [k] := by
      intro y hy
      have : x.toNat.testBit y = true := by have := (List.mem_filter.1 hy).2; exact this
      rw [hk, Nat.testBit_two_pow] at this
      simpa [eq_comm] using this
    have := (List.subperm_of_subset (List.Nodup.filter _ List.nodup_range) this).length_le
    simpa using this

/-- For a power of two, the mask test of R144 says that it divides the base. -/
theorem and_sub_one_eq_zero_iff (b x : Word64) (k : Nat) (hk : x.toNat = 2 ^ k) : b &&&
    (x - 1#64) = 0#64 ↔ x.toNat ∣ b.toNat := by
  have hx : 1 ≤ x.toNat := by rw [hk]; exact Nat.one_le_two_pow
  have h1 : (x - 1#64).toNat = 2 ^ k - 1 := by
    rw [BitVec.toNat_sub_of_le (by rw [BitVec.le_def]; simpa using hx), hk]; rfl
  rw [← BitVec.toNat_inj, BitVec.toNat_and, h1, Nat.and_two_pow_sub_one_eq_mod, hk]
  exact (Nat.dvd_iff_mod_eq_zero).symm

/-- The range test of R134 and R141. -/
theorem outOfEnclaveRange_false_iff (c : Config) (v : Secs) (a : Word64) : outOfEnclaveRange c.laBits
    (secsMode64 c v) a = false ↔ FitsEnclave c v a := by
  unfold outOfEnclaveRange FitsEnclave
  split
  · simp
  · simp

/-- The mask test of R130. -/
theorem xfrm_low_iff (x : Word64) : (x &&& 3#64 = 3#64) ↔ x.getLsbD 0 = true ∧ x.getLsbD 1 = true := by
  constructor
  · intro h
    have h0 := congrArg (·.getLsbD 0) h
    have h1 := congrArg (·.getLsbD 1) h
    simpa using And.intro h0 h1
  · rintro ⟨h0, h1⟩
    apply BitVec.eq_of_getLsbD_eq
    intro i hi
    rw [BitVec.getLsbD_and]
    match i with
    | 0 => simp [h0]
    | 1 => simp [h1]
    | i+2 => 
      have : (3#64).getLsbD (i+2) = false := by
        rw [BitVec.getLsbD]; show Nat.testBit 3 (i+2) = false
        exact Nat.testBit_lt_two_pow (lt_of_lt_of_le (by norm_num : 3 < 2^2) (Nat.pow_le_pow_right (by norm_num)
            (by omega)))
      simp [this]

/-- R132. -/
theorem cetDisabledBad_false_iff (c : Config) (v : Secs) : cetDisabledBad c v = false ↔ (secsCet c v = false →
    v.cetAttributes = 0 ∧ v.cetLegBitmapOffset = 0#64) := by
  unfold cetDisabledBad; cases secsCet c v <;> simp

/-- R133. -/
theorem cetUnsupportedBad_false_iff (c : Config) (v : Secs) : cetUnsupportedBad c v = false ↔ (c.cetIbt = false →
    v.cetLegBitmapOffset = 0#64 ∧ v.cetAttributes / 4 % 16 = 0) ∧ (c.cetSs = false → v.cetAttributes % 4 = 0) := by
  unfold cetUnsupportedBad; cases c.cetIbt <;> cases c.cetSs <;> simp

/-- R147. -/
theorem configIdBad_false_iff (c : Config) (v : Secs) : configIdBad c v = false ↔ secsKss c v = true ∨ (v.configid = 0 ∧
    v.configsvn = 0) := by
  unfold configIdBad; cases secsKss c v <;> simp

/-- R146. -/
theorem secsReservedBad_false_iff (c : Config) (page : List Byte) :
    secsReservedBad c page = false ↔ secsReservedZero c page = true := by
  simp [secsReservedBad]

/-- The checks on the copy pass exactly when the SECS is accepted (R129 to R147). -/
theorem secsRejected_false_iff (c : Config) (page : List Byte) : secsRejected c page = false ↔ Accepts c page
    (parseSecs c page) := by
  set v := parseSecs c page with hv
  have e : secsRejected c page =
      (xfrmLowBitsBad c v || xfrmIllegalBad c v || cetBad c v || miscselectBad c v || ssaframesizeBad c v ||
    baseaddrRangeBad c v || sizeBoundBad c v || sizeShapeBad v || attributesBad c v || secsReservedBad c page ||
    configIdBad c v) := rfl
  rw [e]
  simp only [Bool.or_eq_false_iff, cetBad, cetDisabledBad_false_iff, cetUnsupportedBad_false_iff, configIdBad_false_iff,
      secsReservedBad_false_iff, cetBitmapPlaceBad, baseaddrRangeBad, outOfEnclaveRange_false_iff, cetReservedBad,
    xfrmLowBitsBad, bne_eq_false_iff_eq, xfrm_low_iff, xfrmIllegalBad, miscselectBad, ssaframesizeBad, sizeBoundBad,
        sizeShapeBad, attributesBad, decide_eq_false_iff_not, not_lt, not_le, ssaBytesNeeded]
  constructor
  · rintro ⟨⟨⟨⟨⟨⟨⟨⟨⟨⟨a1, a2⟩, ⟨⟨a3, a4, a5⟩, a6⟩, a7, a8⟩, a9⟩, a10⟩, a11⟩, a12⟩, ⟨a13, a14⟩, a15⟩, a16⟩, a17⟩, a18⟩
    have hne : v.size ≠ 0#64 := by intro h; rw [h] at a13; simp at a13
    obtain ⟨k, hk⟩ := (popcnt_le_one_iff _ hne).1 a14
    exact ⟨a1, a2, a3, a4, a5, a6, a7, Nat.dvd_of_mod_eq_zero a8, a9, not_lt.1 (of_decide_eq_false a10), a11, a12, a13,
        ⟨k, hk⟩, (and_sub_one_eq_zero_iff _ _ k hk).1 a15, a16, a17, a18⟩
  · rintro ⟨a1, a2, a3, a4, a5, a6, a7, a8, a9, a10, a11, a12, a13, ⟨k, hk⟩, a15, a16, a17, a18⟩
    have hne : v.size ≠ 0#64 := by intro h; rw [h] at a13; simp at a13
    exact ⟨⟨⟨⟨⟨⟨⟨⟨⟨⟨a1, a2⟩, ⟨⟨a3, a4, a5⟩, a6⟩, a7, Nat.mod_eq_zero_of_dvd a8⟩, a9⟩, decide_eq_false (not_lt.2 a10)⟩,
        a11⟩, a12⟩, ⟨a13, (popcnt_le_one_iff _ hne).2 ⟨k, hk⟩⟩, (and_sub_one_eq_zero_iff _ _ k hk).2 a15⟩, a16⟩, a17⟩,
        a18⟩

/-! ### The measured block -/

theorem length_leBytes (n v : Nat) : (leBytes n v).length = n := by
  induction n generalizing v with
  | zero => rfl
  | succ n ih => simp [leBytes, ih]

/-- The bytes of a number spell it, modulo their count. -/
theorem leNat_leBytes (n v : Nat) : leNat (leBytes n v) = v % 256 ^ n := by
  induction n generalizing v with
  | zero => simp [leBytes, leNat, Nat.mod_one]
  | succ n ih =>
    simp only [leBytes, leNat, ih, BitVec.toNat_ofNat]
    rw [show (2:Nat)^8 = 256 by norm_num, pow_succ' 256 n, Nat.mod_mul]

end Sys2Proof.Machine
end

