-- ==== Sys2Proof/Laws/Frame.lean ====
section
/-! SUPPORT. The answers of the instruction from its conditions, the states it can leave,
    and what a later execution reads of
them. -/

namespace Sys2Proof.Machine

/-- A named way to end before the copy is what the checks answer. -/
theorem ecreateChecks_early (s : State) (d : Ending) (h : EarlyEnding s d) : ecreateChecks s = .error d := by
  have base : ∀ {s}, ReachesDest s → s.addrOk s.eaRbx 32 32 = true ∧ s.addrOk s.eaRcx 4096 4096 = true :=
    fun h => ⟨addrOk_iff.2 ⟨h.rbxOk, h.rbxAligned⟩, addrOk_iff.2 ⟨h.rcxOk, h.rcxAligned⟩⟩
  have page : ∀ {s pa}, ReachesPageinfo s pa → s.epcPage s.eaRcx = .ok pa := fun h => epcPage_ok.2 ⟨h.resolves, h.inEpc⟩
  have fld : ∀ {s pa pi}, ReachesFields s pa pi → s.memReadNonEnclave .pageinfoRead .pageinfo s.eaRbx 32 = .ok pi :=
    fun h => memRead_ok.2 ⟨h.rbxOk, h.pageinfoRead⟩
  have sec : ∀ {s pa pi}, ReachesSecinfo s pa pi → sourceAddrsOk s pi = true ∧ unusedFieldsZero s.cfg pi = true :=
    fun h => ⟨sourceAddrsOk_iff.2 ⟨⟨h.srcOk, h.srcAligned⟩, h.secinfoOk, h.secinfoAligned⟩,
        unusedFieldsZero_iff.2 ⟨h.linaddrZero, h.secsZero⟩⟩
  have cont : ∀ {s pa pi si}, ReachesSecinfoContent s pa pi si → s.memReadNonEnclave .secinfoRead .secinfo
      (tmpSecinfo s pi) 64 = .ok si :=
    fun h => memRead_ok.2 ⟨h.secinfoOk, h.secinfoRead⟩
  cases h with
  | pageinfoAddress h =>
    have : s.addrOk s.eaRbx 32 32 = false := by by_contra h'; exact h (addrOk_iff.1 (by simpa using h'))
    simp [ecreateChecks, this, ensure, bind, Except.bind]
  | destAddress h0 h =>
    have : s.addrOk s.eaRcx 4096 4096 = false := by by_contra h'; exact h (addrOk_iff.1 (by simpa using h'))
    simp [ecreateChecks, this, addrOk_iff.2 h0, ensure, bind, Except.bind]
  | destPaging h0 h => simp [ecreateChecks, base h0, ensure, bind, Except.bind, State.epcPage, h]
  | destOutside h0 pa h h1 => simp [ecreateChecks, base h0, ensure, bind, Except.bind, State.epcPage, h, h1]
  | pageinfoPaging pa h0 h =>
    simp [ecreateChecks, base h0.toReachesDest, page h0, ensure, bind, Except.bind, State.memReadNonEnclave, h0.rbxOk, h]
  | pageinfoInside pa h0 a h h1 =>
    simp only [ecreateChecks, base h0.toReachesDest, page h0, ensure, bind, Except.bind, State.memReadNonEnclave,
        h0.rbxOk, h, if_true, Bool.or_eq_true, if_pos h1]
  | sourceAddress pa pi h0 h =>
    simp [ecreateChecks, base h0.toReachesDest, page h0.toReachesPageinfo, fld h0, ensure, bind, Except.bind, h]
  | unusedFields pa pi h0 h1 h =>
    simp [ecreateChecks, base h0.toReachesDest, page h0.toReachesPageinfo, fld h0, ensure, bind, Except.bind, h, h1]
  | secinfoPaging pa pi h0 h =>
    simp only [ecreateChecks, base h0.toReachesDest, page h0.toReachesPageinfo, fld h0.toReachesFields, ensure, bind,
        Except.bind, sec h0, if_true]
    simp [State.memReadNonEnclave, h0.secinfoOk, h]
  | secinfoInside pa pi h0 a h h1 =>
    simp only [ecreateChecks, base h0.toReachesDest, page h0.toReachesPageinfo, fld h0.toReachesFields, ensure, bind,
        Except.bind, sec h0, if_true]
    simp only [State.memReadNonEnclave, h0.secinfoOk, h, if_true, Bool.or_eq_true, if_pos h1]
  | secinfoContent pa pi si h0 h =>
    simp [ecreateChecks, base h0.toReachesDest, page h0.toReachesPageinfo, fld h0.toReachesFields, ensure, bind,
        Except.bind, sec h0.toReachesSecinfo, cont h0, h]
  | entryInUse pa pi h0 h =>
    obtain ⟨si, h5, h6⟩ := h0.secinfoPasses
    simp [ecreateChecks, base h0.toReachesDest, page h0.toReachesPageinfo, fld h0.toReachesFields, ensure, bind,
        Except.bind, sec h0.toReachesSecinfo, cont h5, secinfoOk_iff.2 h6, h]
  | entryValid pa pi h0 h1 h =>
    obtain ⟨si, h5, h6⟩ := h0.secinfoPasses
    simp [ecreateChecks, base h0.toReachesDest, page h0.toReachesPageinfo, fld h0.toReachesFields, ensure, bind,
        Except.bind, sec h0.toReachesSecinfo, cont h5, secinfoOk_iff.2 h6, h, h1]
  | sourcePaging pa pi h0 h =>
    obtain ⟨si, h5, h6⟩ := h0.secinfoPasses
    simp only [ecreateChecks, base h0.toReachesDest, page h0.toReachesPageinfo, fld h0.toReachesFields, ensure, bind,
        Except.bind, sec h0.toReachesSecinfo, cont h5, secinfoOk_iff.2 h6, h0.lockFree, h0.notValid]
    simp [State.memReadNonEnclave, h0.srcOk, h]
  | sourceInside pa pi h0 a h h1 =>
    obtain ⟨si, h5, h6⟩ := h0.secinfoPasses
    simp only [ecreateChecks, base h0.toReachesDest, page h0.toReachesPageinfo, fld h0.toReachesFields, ensure, bind,
        Except.bind, sec h0.toReachesSecinfo, cont h5, secinfoOk_iff.2 h6, h0.lockFree, h0.notValid]
    simp only [State.memReadNonEnclave, h0.srcOk, h, if_true, Bool.not_false, Bool.or_eq_true, if_pos h1]

/-- A named way to end before the copy is how the instruction ends. -/
theorem execEnclsEcreate_early (s : State) (d : Ending) (hp : Premises s) (h : EarlyEnding s d) :
    execEnclsEcreate s = endWith s d := by
  rw [execEnclsEcreate_premises hp, ecreateBody, ecreateChecks_early s d h]

/-! ### Outcomes with a part of their state replaced -/

@[simp] theorem mapOutcome_next (g : State → State) (t : State) : mapOutcome g (.next t) = .next (g t) := rfl
@[simp] theorem mapOutcome_refused (g : State → State) (r : Refusal) : mapOutcome g (.refused r) = .refused r := rfl
@[simp] theorem mapOutcome_fault (g : State → State) (f : Fault) : mapOutcome g (.fault f) = .fault (mapFault g f) := rfl

/-- The state an outcome leaves, of an outcome with its state replaced. -/
theorem endState_mapOutcome (g : State → State) (o : Host.Outcome State Fault Refusal) :
    endState (mapOutcome g o) = (endState o).map g := by
  rcases o with t | f | r
  · rfl
  · cases f <;> rfl
  · rfl

/-! ### The commit -/

/-- The instruction answers the commit when the copy is made and the SECS is accepted. -/
theorem execEnclsEcreate_accepted {s : State} {pa : Nat} {page : List Byte} (h : Copied s pa page)
    (ha : Accepts s.cfg page (parseSecs s.cfg page)) : execEnclsEcreate s = .next (ecreateCommit s ⟨pa, page⟩) := by
  rw [execEnclsEcreate_copied h, if_neg]
  rw [(secsRejected_false_iff _ _).2 ha]; simp

/-- The only next state is that of the commit. -/
theorem execEnclsEcreate_next_iff {s t : State} : execEnclsEcreate s = .next t ↔
    ∃ pa page, Copied s pa page ∧ Accepts s.cfg page (parseSecs s.cfg page) ∧ t = ecreateCommit s ⟨pa, page⟩ := by
  constructor
  · intro h
    rcases execEnclsEcreate_cases s with ⟨-, r, h'⟩ | ⟨d, -, -, h'⟩ | ⟨_, _, _, -, h'⟩ | ⟨pa, page, hc, hr, h'⟩
    · rw [h'] at h; simp at h
    · rw [h'] at h; cases d <;> simp [endWith] at h
    · rw [h'] at h; simp [endWith] at h
    · rw [h'] at h
      exact ⟨pa, page, hc, (secsRejected_false_iff _ _).1 hr, by simpa using h.symm⟩
  · rintro ⟨pa, page, hc, ha, rfl⟩
    exact execEnclsEcreate_accepted hc ha

/-- The states that the instruction can leave: the start state, with the VMCS fields of a VM exit, with a free page,
    or committed. -/
theorem endState_cases (s t : State) (h : endState (execEnclsEcreate s) = some t) :
   (t = s ∧ ∃ f, execEnclsEcreate s = .fault f ∧ (∀ v a, f ≠ .vmExit v a)) ∨
   (∃ pa pi, ReachesEntry s pa pi ∧ (s.epcmAt (frameOf pa)).lockHeld = true ∧ s.vmxNonRoot = true ∧ s.epcVirtExt = true ∧
       execEnclsEcreate s = .fault (.vmExit (conflictFields s.cfg pa (s.lin s.eaRcx)) (s.setVmcs (conflictFields s.cfg pa
       (s.lin s.eaRcx)))) ∧ t = s.setVmcs (conflictFields s.cfg pa (s.lin s.eaRcx))) ∨
   (∃ pa page, Copied s pa page ∧ secsRejected s.cfg page = true ∧ execEnclsEcreate s = .fault (.gp 0 s.instrPointer
       (s.forgetEpcData (frameOf pa))) ∧ t = s.forgetEpcData (frameOf pa)) ∨
   (∃ pa page, Copied s pa page ∧ secsRejected s.cfg page = false ∧ execEnclsEcreate s = .next t ∧
       t = ecreateCommit s ⟨pa, page⟩) := by
  rcases execEnclsEcreate_cases s with ⟨-, r, h'⟩ | ⟨d, -, he, h'⟩ | ⟨pa, page, hc, hr, h'⟩ | ⟨pa, page, hc, hr, h'⟩
  · rw [h'] at h; simp [endState] at h
  · rw [h'] at h ⊢
    cases he with
    | entryInUse pa pi h0 hl =>
      unfold entryInUseEnding at h ⊢
      split at h
      · rename_i hv
        simp at hv
        refine .inr (.inl ⟨pa, pi, h0, hl, hv.1, hv.2, ?_, ?_⟩)
        · simp [hv, endWith]
        · simpa [endWith, endState, resumeState, eq_comm] using h
      · rename_i hv
        rw [if_neg hv]
        refine .inl ⟨by simpa [endWith, endState, resumeState, eq_comm] using h, _, rfl, by simp⟩
    | _ =>
      first
      | (simp [endWith, endState] at h; done)
      | exact .inl ⟨by simpa [endWith, endState, resumeState, eq_comm] using h, _, rfl, by simp⟩
  · rw [h'] at h ⊢
    exact .inr (.inr (.inl ⟨pa, page, hc, hr, rfl, by simpa [endWith, endState, resumeState, eq_comm] using h⟩))
  · rw [h'] at h ⊢
    have : t = ecreateCommit s ⟨pa, page⟩ := by simpa [endState, eq_comm] using h
    exact .inr (.inr (.inr ⟨pa, page, hc, hr, by rw [this], this⟩))

/-! ### The committed state through the accessors -/

theorem ecreateCommit_mem_eq (s : State) (pa : Nat) (page : List Byte) : (ecreateCommit s ⟨pa,
    page⟩).mem = s.mem.writeBytes (frameOf pa * 4096) (committedPage s.cfg page) := rfl

theorem ecreateCommit_epcm_eq (s : State) (pa : Nat) (page : List Byte) : (ecreateCommit s ⟨pa,
    page⟩).epcm = tableInsert EpcmEntry.empty s.epcm (frameOf pa) (createdEntry s.cfg) := rfl

theorem ecreateCommit_secsx_eq (s : State) (pa : Nat) (page : List Byte) : (ecreateCommit s ⟨pa,
    page⟩).secsx = tableInsert SecsHidden.empty s.secsx (frameOf pa) (createdHidden s.cfg ⟨pa, page⟩ s.nextEid) := rfl

theorem ecreateCommit_epcmAt_same (s : State) (pa : Nat) (page : List Byte) : (ecreateCommit s ⟨pa, page⟩).epcmAt
    (frameOf pa) = createdEntry s.cfg :=
  tableLookup_insert_self _ (createdEntry_ne_empty _)

theorem ecreateCommit_secsxAt_same (s : State) (pa : Nat) (page : List Byte) : (ecreateCommit s ⟨pa, page⟩).secsxAt
    (frameOf pa) = createdHidden s.cfg ⟨pa, page⟩ s.nextEid :=
  tableLookup_insert_self _ (createdHidden_ne_empty _ _ _)

theorem ecreateCommit_epcmAt_ne (s : State) (pa : Nat) (page : List Byte) (p : Nat) (hi : s.Inv) (hp : p ≠ frameOf pa) :
    (ecreateCommit s ⟨pa, page⟩).epcmAt p = s.epcmAt p := by
  unfold State.epcmAt; rw [ecreateCommit_epcm]; exact tableLookup_insert_ne _ hi.epcmWf hp

theorem ecreateCommit_secsxAt_ne (s : State) (pa : Nat) (page : List Byte) (p : Nat) (hi : s.Inv) (hp : p ≠ frameOf pa) :
    (ecreateCommit s ⟨pa, page⟩).secsxAt p = s.secsxAt p := by
  unfold State.secsxAt; rw [ecreateCommit_secsx]; exact tableLookup_insert_ne _ hi.secsxWf hp

theorem read_committed (s : State) (pa : Nat) (page : List Byte) (k : Nat) (h : Copied s pa page) (hk : k < 4096) :
    (ecreateCommit s ⟨pa, page⟩).mem.read (frameOf pa * 4096 + k) = (committedPage s.cfg page).getD k 0#8 := by
  rw [ecreateCommit_mem]
  exact Memory.read_writeBytes_in _ _ _ (by simp [h.length, hk])

/-- What the destination is when the copy is made. -/
theorem Copied.destination {s : State} {pa : Nat} {page : List Byte} (h : Copied s pa page) : s.translate
    (s.lin s.eaRcx) .write = some pa ∧ frameInEpc s.cfg (frameOf pa) = true ∧ (s.epcmAt (frameOf pa)).lockHeld = false ∧
    (s.epcmAt (frameOf pa)).valid = false := by
  obtain ⟨_, h, -⟩ := h
  exact ⟨h.resolves, h.inEpc, h.lockFree, h.notValid⟩

/-! ### What a second execution reads -/

/-- `t` has the registers, modes and page tables of `s` and its memory outside page `p`. -/
structure SameReads (s t : State) (p : Nat) : Prop where
  cfg : t.cfg = s.cfg
  gpr : t.gpr = s.gpr
  ds : t.ds = s.ds
  mode : t.mode64 = s.mode64
  paging : t.paging = s.paging
  rd : ∀ a n, n ≤ 4096 → frameOf a ≠ p → frameOf (a + n - 1) ≠ p → t.mem.readBytes a n = s.mem.readBytes a n

section
variable {s t : State} {p : Nat} (h : SameReads s t p)
include h

theorem SameReads.effective_eq (v) : t.effective v = s.effective v := by simp [State.effective, h.mode]

theorem SameReads.lin_eq (v) : t.lin v = s.lin v := by simp [State.lin, h.mode, h.ds]

theorem SameReads.eaRbx_eq : t.eaRbx = s.eaRbx := by simp [State.eaRbx, SameReads.effective_eq h, h.gpr]

theorem SameReads.eaRcx_eq : t.eaRcx = s.eaRcx := by simp [State.eaRcx, SameReads.effective_eq h, h.gpr]

theorem SameReads.dsOk_eq (e n) : t.dsOk e n = s.dsOk e n := by
  simp [State.dsOk, State.dsListed, h.mode, h.ds, h.cfg, SameReads.lin_eq h]

theorem SameReads.translate_eq (e k) : t.translate e k = s.translate e k := by simp [State.translate, h.paging]

theorem SameReads.tmpSrcpge_eq (pi) : tmpSrcpge t pi = tmpSrcpge s pi := by simp [tmpSrcpge, h.cfg,
    SameReads.effective_eq h]

theorem SameReads.tmpSecinfo_eq (pi) : tmpSecinfo t pi = tmpSecinfo s pi := by simp [tmpSecinfo, h.cfg,
    SameReads.effective_eq h]

theorem SameReads.sourceAt {e n a} (hp : frameInEpc s.cfg p = true) (hn : n ≤ 4096) (ha : SourceAt s e n a) :
    SourceAt t e n a ∧ t.mem.readBytes a n = s.mem.readBytes a n := by
  obtain ⟨h1, h2, h3⟩ := ha
  refine ⟨⟨by rwa [SameReads.translate_eq h, SameReads.lin_eq h], by rwa [h.cfg], by rwa [h.cfg]⟩, h.rd a n hn ?_ ?_⟩
  · rintro rfl; simp [h2] at hp
  · intro h'; rw [h'] at h3; simp [h3] at hp

theorem SameReads.reachesSecinfo {pa pi} (hp : Premises t) (hpp : p = frameOf pa) (hr : ReachesSecinfo s pa pi) :
    ReachesSecinfo t pa pi := by
  obtain ⟨⟨⟨⟨-, a1, a2, a3, a4⟩, a5, a6⟩, a, a7, a8⟩, b1, b2, b3, b4, b5, b6⟩ := hr
  have := SameReads.sourceAt h (by rw [hpp]; exact a6) (by norm_num) a7
  constructor <;> try simpa [SameReads.dsOk_eq h, SameReads.lin_eq h, SameReads.tmpSrcpge_eq h,
      SameReads.tmpSecinfo_eq h, h.cfg]
  constructor
  · constructor <;> try simpa [SameReads.translate_eq h, SameReads.lin_eq h, SameReads.eaRcx_eq h, h.cfg]
    exact ⟨hp, by simpa [SameReads.dsOk_eq h, SameReads.eaRbx_eq h], by simpa [SameReads.lin_eq h, SameReads.eaRbx_eq h],
        by simpa [SameReads.dsOk_eq h, SameReads.eaRcx_eq h], by simpa [SameReads.lin_eq h, SameReads.eaRcx_eq h]⟩
  · exact ⟨a, by rw [SameReads.eaRbx_eq h]; exact this.1, by rw [a8, this.2]⟩

theorem SameReads.reachesSecinfoContent {pa pi c} (hp : Premises t) (hpp : p = frameOf pa) (hr :
    ReachesSecinfoContent s pa pi c) : ReachesSecinfoContent t pa pi c := by
  obtain ⟨h1, a, h2, h3⟩ := hr
  have := SameReads.sourceAt h (by rw [hpp]; exact h1.inEpc) (by norm_num) h2
  exact ⟨SameReads.reachesSecinfo h hp hpp h1, a, by rw [SameReads.tmpSecinfo_eq h]; exact this.1, by rw [h3, this.2]⟩

theorem SameReads.reachesEntry {pa pi} (hp : Premises t) (hpp : p = frameOf pa) (hr : ReachesEntry s pa pi) :
    ReachesEntry t pa pi := by
  obtain ⟨h1, c, h2, h3, h4⟩ := hr
  exact ⟨SameReads.reachesSecinfo h hp hpp h1, c, SameReads.reachesSecinfoContent h hp hpp h2, by rwa [h.cfg],
      by rwa [h.cfg]⟩

theorem SameReads.copied {pa page} (hp : Premises t) (hpp : p = frameOf pa) (he : t.epcmAt p = s.epcmAt p) (hr :
    Copied s pa page) : Copied t pa page := by
  obtain ⟨pi, ⟨h1, h2, h3⟩, a, h4, h5⟩ := hr
  have := SameReads.sourceAt h (by rw [hpp]; exact h1.inEpc) (by norm_num) h4
  subst hpp
  exact ⟨pi, ⟨SameReads.reachesEntry h hp rfl h1, by rwa [he], by rwa [he]⟩, a,
      by rw [SameReads.tmpSrcpge_eq h]; exact this.1, by rw [h5, this.2]⟩

end

theorem sameReads_forgetEpcData {s : State} (hm : s.mem.wf = true) (p : Nat) : SameReads s (s.forgetEpcData p) p :=
  ⟨rfl, rfl, rfl, rfl, rfl,
      fun a n hn h0 h1 => by rw [State.forgetEpcData_mem]; exact Memory.readBytes_writePage_other hm (by simp) hn h0 h1⟩

theorem sameReads_ecreateCommit {s : State} (hm : s.mem.wf = true) {pa page} (hl : page.length = 4096) : SameReads s
    (ecreateCommit s ⟨pa, page⟩) (frameOf pa) := by
  refine ⟨ecreateCommit_cfg _ _, ecreateCommit_gpr _ _, ecreateCommit_ds _ _, ecreateCommit_mode64 _ _,
      ecreateCommit_paging _ _, fun a n hn h0 h1 => ?_⟩
  have hl' : (committedPage s.cfg page).length ≤ 4096 := by rw [length_committedPage, hl]
  rw [ecreateCommit_mem_eq]; exact Memory.readBytes_writePage_other hm hl' hn h0 h1

theorem Premises.congr {s t : State} (hp : Premises s) (h1 : t.gpr = s.gpr) (h2 : t.cpl = s.cpl) (h3 :
    t.inEnclave = s.inEnclave) (h4 : t.sgxEnabled = s.sgxEnabled) (h5 : t.cfg = s.cfg) (h6 : t.inSmm = s.inSmm) (h7 :
    t.interruptPending = s.interruptPending) (h8 : t.pcOverflows 3 = false) : Premises t := by
  obtain ⟨a1,a2,a3,a4,a5,a6,a7,a8⟩ := hp
  exact ⟨by rwa [h1], by rwa [h2], by rwa [h3], by rwa [h4], by rwa [h5], by rwa [h6], by rwa [h7], pcFits_iff.1 h8⟩

end Sys2Proof.Machine
end

