-- ==== Sys2Proof/Laws/Open.lean ====
section
/-! SUPPORT. The two OPEN predicates of 00_scope.md R8 have no fixed form in the model: each function the spec allows is that
of some state or configuration. -/

namespace Sys2Proof.Machine

/-- Where the segment lists nothing, `ds_ok` is canonicality in 64-bit mode and the limit outside it. -/
theorem State.dsOk_unlisted {s : State} (h : s.ds.listed = []) (e : Word64) (n : Nat) :
    s.dsOk e n = if s.mode64 then canonical s.cfg.laBits (s.lin e) else s.ds.inLimit e n := by
  simp [State.dsOk, State.dsListed, h]

/-- Where no page is listed, `secs_reserved_zero` is that the bytes of the reserved fields are zero. -/
theorem secsReservedZero_unlisted {c : Config} (h : c.secsReservedListed = []) (page : List Byte) :
    secsReservedZero c page = true ↔ ∀ f ∈ c.secsReserved, ∀ b ∈ fieldBytes page f, b = 0#8 := by
  simp [secsReservedZero, h]

/-- The 64-bit words are finitely many. -/
theorem exists_all_words : ∃ ws : List Word64, ∀ w, w ∈ ws :=
  ⟨(Finset.univ : Finset (Fin (2 ^ 64))).toList.map BitVec.ofFin, fun w => List.mem_map.2 ⟨w.toFin, by simp, rfl⟩⟩

/-- So are the pages, and the byte strings of any one length. -/
theorem exists_all_strings (n : Nat) : ∃ ps : List (List Byte), ∀ p : List Byte, p.length = n → p ∈ ps := by
  induction n with
  | zero => exact ⟨[[]], fun p hp => by simp [List.length_eq_zero_iff.1 hp]⟩
  | succ n ih =>
    obtain ⟨ps, hps⟩ := ih
    refine ⟨(Finset.univ : Finset (Fin (2 ^ 8))).toList.flatMap fun b => ps.map (BitVec.ofFin b :: ·), fun p hp => ?_⟩
    cases p with
    | nil => simp at hp
    | cons b p =>
      exact List.mem_flatMap.2 ⟨b.toFin, by simp, List.mem_map.2 ⟨p, hps p (by simpa using hp), rfl⟩⟩

/-- The first element that passes a test, where every element that passes has the same image. -/
theorem find_map_eq {α β : Type} {p : α → Bool} {g : α → β} {b : β} {l : List α} (hex : ∃ x ∈ l, p x = true)
    (hall : ∀ x ∈ l, p x = true → g x = b) : (l.find? p).map g = some b := by
  cases h : l.find? p with
  | none =>
    obtain ⟨x, hx, hp⟩ := hex
    exact absurd hp (List.find?_eq_none.1 h x hx)
  | some x => exact congrArg some (hall x (List.mem_of_find?_eq_some h) (List.find?_some h))

/-- R62: for operands of finitely many lengths (the instruction has three) the segment can hold any predicate as its answers
of either mode. -/
theorem exists_segment_lines (f : Bool → Word64 → Nat → Bool) (lens : List Nat) :
    ∃ ls : List SegmentLine, ∀ (m : Bool) (e : Word64) (n : Nat), n ∈ lens →
      (ls.find? fun l => l.covers m e n).map SegmentLine.ok = some (f m e n) := by
  obtain ⟨ws, hws⟩ := exists_all_words
  refine ⟨[false, true].flatMap fun m => lens.flatMap fun n => ws.map fun w => ⟨m, w, w, n, f m w n⟩, fun m e n hn => ?_⟩
  refine find_map_eq ⟨⟨m, e, e, n, f m e n⟩, ?_, by simp [SegmentLine.covers]⟩ ?_
  · exact List.mem_flatMap.2 ⟨m, by cases m <;> simp, List.mem_flatMap.2 ⟨n, hn, List.mem_map.2 ⟨e, hws e, rfl⟩⟩⟩
  · intro l hl hc
    obtain ⟨m', -, hl⟩ := List.mem_flatMap.1 hl
    obtain ⟨n', -, hl⟩ := List.mem_flatMap.1 hl
    obtain ⟨w, -, rfl⟩ := List.mem_map.1 hl
    simp only [SegmentLine.covers, Bool.and_eq_true, beq_iff_eq, decide_eq_true_eq] at hc
    obtain ⟨⟨rfl, rfl⟩, h1, h2⟩ := hc
    rw [show w = e from BitVec.eq_of_toNat_eq (Nat.le_antisymm h1 h2)]

/-- R62: `ds_ok` can be any predicate that is false, in 64-bit mode, where the linear address is not canonical. -/
theorem dsOk_can_be_any (f : Bool → Word64 → Nat → Bool) (lens : List Nat) (s : State)
    (hf : ∀ e n, f true e n = true → canonical s.cfg.laBits e = true) :
    ∃ ls : List SegmentLine, ∀ (m : Bool) (e : Word64) (n : Nat), n ∈ lens →
      State.dsOk { s with mode64 := m, ds := { s.ds with listed := ls } } e n = f m e n := by
  obtain ⟨ls, hls⟩ := exists_segment_lines f lens
  refine ⟨ls, fun m e n hn => ?_⟩
  simp only [State.dsOk, State.dsListed, hls m e n hn, Option.getD_some]
  cases m with
  | false => rfl
  | true =>
    have h := hf e n
    cases hv : f true e n with
    | false => simp
    | true => simpa [State.lin] using h hv

@[simp] theorem length_blankOverwritten (c : Config) (page : List Byte) : (blankOverwritten c page).length = page.length := by
  simp [blankOverwritten]

/-- Pages that agree outside the three overwritten fields are the same page to `secsReservedZero`. -/
theorem blankOverwritten_congr (c : Config) {page page' : List Byte} (hl : page.length = page'.length)
    (h : ∀ k, (∀ f ∈ [c.secs.mrenclave, c.secs.isvsvn, c.secs.isvprodid], k < f.off ∨ f.off + f.len ≤ k) →
      page.getD k 0#8 = page'.getD k 0#8) : blankOverwritten c page = blankOverwritten c page' := by
  have hlen : (blankOverwritten c page).length = (blankOverwritten c page').length := by simp [hl]
  refine List.ext_getElem hlen fun k hk hk' => ?_
  rw [← List.getD_eq_getElem _ 0#8, ← List.getD_eq_getElem _ 0#8]
  rw [length_blankOverwritten] at hk hk'
  simp only [blankOverwritten, List.foldl_cons, List.foldl_nil]
  iterate 6 rw [getD_setField _ _ _ (by first | (simp only [length_setField]; omega) | omega)]
  repeat' split
  all_goals first | rfl | exact h k (by simp; omega)

/-- R146: `secs_reserved_zero` can be any predicate that does not look at the three overwritten fields. -/
theorem secsReservedZero_can_be_any (c : Config) (f : List Byte → Bool)
    (hf : ∀ page, f page = f (blankOverwritten c page)) :
    ∃ t : List (List Byte × Bool), ∀ page : List Byte, page.length = 4096 →
      secsReservedZero { c with secsReservedListed := t } page = f page := by
  obtain ⟨ps, hps⟩ := exists_all_strings 4096
  refine ⟨ps.map fun p => (p, f p), fun page hp => ?_⟩
  have hb : blankOverwritten { c with secsReservedListed := ps.map fun p => (p, f p) } page = blankOverwritten c page := rfl
  have h := find_map_eq (p := fun e : List Byte × Bool => decide (e.1 = blankOverwritten c page)) (g := Prod.snd)
    (b := f page) (l := ps.map fun p => (p, f p))
    ⟨(_, _), List.mem_map.2 ⟨_, hps _ ((length_blankOverwritten c page).trans hp), rfl⟩, by simp⟩
    (fun x hx h => by
      obtain ⟨p, -, rfl⟩ := List.mem_map.1 hx
      rw [hf page, ← of_decide_eq_true h])
  unfold secsReservedZero
  rw [hb]
  cases hx : (ps.map fun p => (p, f p)).find? fun e => decide (e.1 = blankOverwritten c page) with
  | none => rw [hx] at h; simp at h
  | some e => rw [hx] at h; simpa using h

end Sys2Proof.Machine
end

