-- ==== Sys2Proof/Laws/PerInstr.lean ====
section
/-! SUPPORT. Statements for all instructions, made per instruction. -/

namespace Sys2Proof.Laws.EncodingLength

/-- The encoding is well-formed and as long as the instruction says (30_encoding.md R91). -/
def Statement (i : Instr) : Prop :=
  i.wf = true ∧ (encode i).length = instrLen i

theorem enclsEcreate : Statement .enclsEcreate :=
  ⟨rfl, rfl⟩

end Sys2Proof.Laws.EncodingLength
end

