-- ==== Sys2Proof/Laws/Run.lean ====
section
/-! SUPPORT. The induction over a run, packaged once. -/

namespace Sys2Proof.Machine

/-- Of any machine: what every step keeps holds after every run that does not stop. -/
theorem core_run_keeps {M : Host.Core} {P : M.State → Prop} (hstep : ∀ s t, P s → M.step s = .next t → P t)
    (n : Nat) (s t : M.State) (hs : P s) (h : M.run n s = .next t) : P t := by
  induction n generalizing s with
  | zero =>
    simp only [Host.Core.run, Host.Outcome.next.injEq] at h
    exact h ▸ hs
  | succ n ih =>
    simp only [Host.Core.run] at h
    split at h
    · rename_i u hn
      exact ih u (hstep s u hs hn) h
    · simp at h
    · simp at h

/-- What every step of this machine keeps holds after every run of it that does not stop. -/
theorem run_keeps {P : State → Prop} (hstep : ∀ s t, P s → step s = .next t → P t) (n : Nat) (s t : State)
    (hs : P s) (h : Sys2Proof.core.run n s = .next t) : P t :=
  core_run_keeps (M := Sys2Proof.core) hstep n s t hs h

end Sys2Proof.Machine
end

