-- ==== Sys2Proof/Tests/Slice0.lean ====
section
/-! SUPPORT. The row's own tests: decoding by words written out bit by bit, one ill-formed configuration for each check, two steps
of the instruction, and for each obligation with hypotheses a witness that meets them (numbers V<n> are the vectors of
95_test_vectors.md). Expected results are those of the spec, never the model's. -/

namespace Sys2Proof.Tests

open Sys2Proof.Machine

-- One thread: each thread's stack counts against the memory limit.
set_option Elab.async false

/-! ### Decoding (30_encoding.md R91, R94) -/

/-- `0F 01 CF`, bit by bit, the byte at the lowest address last in the word. -/
theorem test_decode_bits :
    decodeTableWord 24 0b110011110000000100001111 = some .enclsEcreate := by decide

/-- A word that is one bit off is no instruction (`0F 01 CE`). -/
theorem test_decode_neighbour : decodeTableWord 24 0b110011100000000100001111 = none := by decide

/-- R96: a prefixed form is not the instruction. -/
theorem test_decode_behind_rex : decode [0x48#8, 0x0F#8, 0x01#8, 0xCF#8] = .error .prefixed := by rfl

theorem test_decode_two_bytes : decode [0x0F#8, 0x01#8] = .error .truncated := by rfl

/-- What follows the three bytes is left over. -/
theorem test_decode_leaves_rest : decode [0x0F#8, 0x01#8, 0xCF#8, 0x90#8] = .ok (.enclsEcreate, [0x90#8]) := by rfl

/-! ### WellFormed: each check refuses an ill-formed term -/

/-- The one constructor has no ill-formed term. -/
theorem test_wf_instr : Instr.wf .enclsEcreate = true := by decide

theorem test_wf_initial : Config.initial.wf = true := by decide

/-- Two fields of PAGEINFO at one place. -/
theorem test_wf_pageinfo : Config.pageinfoOk
    { Config.initial with pageinfo := { Config.defaultPageinfo with secs := ⟨16, 8⟩ } } = false := by decide

/-- PT reaching beyond FLAGS. -/
theorem test_wf_secinfo : Config.secinfoOk
    { Config.initial with secinfo := { Config.defaultSecinfo with ptLo := 57 } } = false := by decide

/-- SIZE with another width than the source's. -/
theorem test_wf_secs_width : Config.secsWidthsOk
    { Config.initial with secs := { Config.defaultSecs with size := ⟨0, 4⟩ } } = false := by decide

/-- A reserved field reaching beyond the page. -/
theorem test_wf_secs_place : Config.secsPlacesOk
    { Config.initial with secsReserved := [⟨262, 3835⟩] } = false := by decide

/-- KSS inside XFRM. -/
theorem test_wf_attr : Config.attrOk
    { Config.initial with attr := { Config.defaultAttr with kss := 64 } } = false := by decide

theorem test_wf_la_bits : Config.laBitsOk { Config.initial with laBits := 65 } = false := by decide

/-- CR_NEXT_EID_reset with one bit too many. -/
theorem test_wf_eid_reset : Config.eidResetOk { Config.initial with nextEidReset := 2 ^ 64 } = false := by decide

theorem test_wf_exit_constants : Config.exitConstantsOk { Config.initial with sgxConflict := 1 } = false := by decide

/-- An ill-formed part makes the whole configuration ill-formed. -/
theorem test_wf_whole : Config.wf { Config.initial with laBits := 0 } = false := by decide

/-! ### The start state S0 of 95_test_vectors.md

Its sparse memory lists PAGEINFO at 100000H, the SECS at 101000H, SECINFO at 102000H and the instruction at 400000H. The reserved
fields of the SECS are a part of the default ones, so that the kernel reads fewer bytes. -/

/-- The configuration of S0. -/
def cfg0 : Config := { Config.initial with
  miscSupported  := 1
  maxSizeNot64   := 31
  maxSize64      := 36
  attributesMask := 0x00000000000000E700000000000000F6
  xfrmIllegal    := ⟨[(3, false), (7, false), (0xB, true)], true⟩
  xsaveSize      := ⟨[(3, 576), (7, 832)], 0⟩
  gprSize        := 184
  miscRegionSize := ⟨[(1, 16)], 0⟩
  secsReserved   := [⟨33, 15⟩, ⟨96, 32⟩, ⟨4090, 6⟩]
  epc            := [⟨0x80000, 16⟩] }

/-- S0: SIZE 2000H, BASEADDR 0, SSAFRAMESIZE 1, a 64-bit enclave, XFRM 3. -/
def s0 : State := { State.reset with
  cfg     := cfg0
  mode64  := true
  pc      := 0x400000
  nextEid := 7
  gpr     := { State.reset.gpr with rbx := 0x100000, rcx := 0x200000 }
  paging  := [⟨0x100000, 0x4000, 0x100000, true, true⟩, ⟨0x300000, 0x1000, 0x300000, true, true⟩,
              ⟨0x400000, 0x1000, 0x400000, true, true⟩, ⟨0x200000, 0x10000, 0x80000000, true, true⟩]
  mem     := [(0x100009, 0x10), (0x10000A, 0x10), (0x100011, 0x20), (0x100012, 0x10),
              (0x101001, 0x20), (0x101010, 1), (0x101030, 4), (0x101038, 3),
              (0x400000, 0x0F), (0x400001, 0x01), (0x400002, 0xCF)] }

/-! Changes to it. -/

/-- `n` bytes of `v` at address `a`. -/
def put (a n v : Nat) (s : State) : State := { s with mem := s.mem.writeBytes a (leBytes n v) }
/-- At offset `o` of the SECS. -/
def secs (o n v : Nat) (s : State) : State := put (0x101000 + o) n v s
/-- At offset `o` of PAGEINFO. -/
def pinfo (o n v : Nat) (s : State) : State := put (0x100000 + o) n v s
/-- The low byte of ATTRIBUTES. -/
def attrs (v : Nat) (s : State) : State := secs 48 1 v s
def conf (f : Config → Config) (s : State) : State := { s with cfg := f s.cfg }
def ibt (s : State) : State := conf (fun c => { c with cetIbt := true }) s
def ss (s : State) : State := conf (fun c => { c with cetSs := true }) s
def rbx (v : Word64) (s : State) : State := { s with gpr := { s.gpr with rbx := v } }
def rcx (v : Word64) (s : State) : State := { s with gpr := { s.gpr with rcx := v } }
def lock (s : State) : State := s.setEpcm 0x80000 { EpcmEntry.empty with lockHeld := true }
def valid (s : State) : State := s.setEpcm 0x80000 { EpcmEntry.empty with valid := true }
def guest (s : State) : State := { s with vmxNonRoot := true, epcVirtExt := true }
/-- Outside 64-bit mode, with a DS segment of base 0 and limit FFFFFFFFH. -/
def mode32 (s : State) : State := { s with mode64 := false, ds := ⟨0, 0, 0xFFFFFFFF, []⟩ }
/-- The destination's frame holds no enclave; frame 80001H does, with identifier 6. -/
def other (s : State) : State :=
  { s with
    epcm  := [(0x80001, { EpcmEntry.empty with valid := true })]
    secsx := [(0x80001, { SecsHidden.empty with eid := 6 })] }

/-! ### Checkers: what a witness needs, as one closed test each -/

def chkDest (s : State) : Bool :=
  premiseRefusal s == none && s.addrOk s.eaRbx 32 32 && s.addrOk s.eaRcx 4096 4096

def chkPageinfo (s : State) (pa : Nat) : Bool :=
  chkDest s && s.translate (s.lin s.eaRcx) .write == some pa && frameInEpc s.cfg (frameOf pa)

def chkSource (s : State) (e : Word64) (n a : Nat) : Bool :=
  s.translate (s.lin e) .read == some a && !frameInEpc s.cfg (frameOf a) && !frameInEpc s.cfg (frameOf (a + n - 1))

def chkFields (s : State) (pa a : Nat) : Bool :=
  chkPageinfo s pa && chkSource s s.eaRbx 32 a

def chkSecinfo (s : State) (pa a : Nat) : Bool :=
  chkFields s pa a && sourceAddrsOk s (s.mem.readBytes a 32) && unusedFieldsZero s.cfg (s.mem.readBytes a 32)

def chkContent (s : State) (pa a b : Nat) : Bool :=
  chkSecinfo s pa a && chkSource s (tmpSecinfo s (s.mem.readBytes a 32)) 64 b

def chkEntry (s : State) (pa a b : Nat) : Bool :=
  chkContent s pa a b && secinfoOk s.cfg (s.mem.readBytes b 64)

def chkCopy (s : State) (pa a b : Nat) : Bool :=
  chkEntry s pa a b && !(s.epcmAt (frameOf pa)).lockHeld && !(s.epcmAt (frameOf pa)).valid

def chkCopied (s : State) (pa a b c : Nat) : Bool :=
  chkCopy s pa a b && chkSource s (tmpSrcpge s (s.mem.readBytes a 32)) 4096 c

theorem premises_of {s : State} (h : (premiseRefusal s == none) = true) : Premises s :=
  premiseRefusal_none.1 (by simpa using h)

theorem dest_of {s : State} (h : chkDest s = true) : ReachesDest s := by
  simp only [chkDest, Bool.and_eq_true, addrOk_iff] at h
  exact ⟨premises_of h.1.1, h.1.2.1, h.1.2.2, h.2.1, h.2.2⟩

theorem pageinfo_of {s : State} {pa : Nat} (h : chkPageinfo s pa = true) : ReachesPageinfo s pa := by
  simp only [chkPageinfo, Bool.and_eq_true, beq_iff_eq] at h
  exact ⟨dest_of h.1.1, h.1.2, h.2⟩

theorem source_of {s : State} {e : Word64} {n a : Nat} (h : chkSource s e n a = true) : SourceAt s e n a := by
  simp only [chkSource, Bool.and_eq_true, beq_iff_eq, Bool.not_eq_true'] at h
  exact ⟨h.1.1, h.1.2, h.2⟩

theorem fields_of {s : State} {pa a : Nat} (h : chkFields s pa a = true) :
    ReachesFields s pa (s.mem.readBytes a 32) := by
  simp only [chkFields, Bool.and_eq_true] at h
  exact ⟨pageinfo_of h.1, a, source_of h.2, rfl⟩

theorem secinfo_of {s : State} {pa a : Nat} (h : chkSecinfo s pa a = true) :
    ReachesSecinfo s pa (s.mem.readBytes a 32) := by
  simp only [chkSecinfo, Bool.and_eq_true, sourceAddrsOk_iff, unusedFieldsZero_iff] at h
  obtain ⟨⟨h1, ⟨h2, h3⟩, h4, h5⟩, h6, h7⟩ := h
  exact ⟨fields_of h1, h2, h3, h4, h5, h6, h7⟩

theorem content_of {s : State} {pa a b : Nat} (h : chkContent s pa a b = true) :
    ReachesSecinfoContent s pa (s.mem.readBytes a 32) (s.mem.readBytes b 64) := by
  simp only [chkContent, Bool.and_eq_true] at h
  exact ⟨secinfo_of h.1, b, source_of h.2, rfl⟩

theorem entry_of {s : State} {pa a b : Nat} (h : chkEntry s pa a b = true) :
    ReachesEntry s pa (s.mem.readBytes a 32) := by
  simp only [chkEntry, Bool.and_eq_true, secinfoOk_iff] at h
  have hc := content_of h.1
  exact ⟨hc.toReachesSecinfo, _, hc, h.2⟩

theorem copy_of {s : State} {pa a b : Nat} (h : chkCopy s pa a b = true) :
    ReachesCopy s pa (s.mem.readBytes a 32) := by
  simp only [chkCopy, Bool.and_eq_true, Bool.not_eq_true'] at h
  exact ⟨entry_of h.1.1, h.1.2, h.2⟩

theorem copied_of {s : State} {pa a b c : Nat} (h : chkCopied s pa a b c = true) :
    Copied s pa (s.mem.readBytes c 4096) := by
  simp only [chkCopied, Bool.and_eq_true] at h
  exact ⟨_, copy_of h.1, c, source_of h.2, rfl⟩

/-- The source page of a changed S0, and the SECS in it. -/
def page (s : State) : List Byte := s.mem.readBytes 0x101000 4096
def sec (s : State) : Secs := parseSecs s.cfg (page s)

/-- A changed S0 reaches the copy: PAGEINFO, SECINFO and the SECS at the addresses of S0, the page to frame 80000H. -/
def copies (s : State) : Bool := chkCopied s 0x80000000 0x100000 0x102000 0x101000

theorem copied {s : State} (h : copies s = true) : Copied s 0x80000000 (page s) := copied_of h

/-- A state that reaches the copy with a SECS that passes every check completes. -/
theorem accepted {s : State} (h : secsRejected s.cfg (page s) = false) : Accepts s.cfg (page s) (sec s) :=
  (secsRejected_false_iff _ _).1 h

theorem completes {s : State} (h : copies s = true) (ha : secsRejected s.cfg (page s) = false) :
    exec .enclsEcreate s = .next (ecreateCommit s ⟨0x80000000, page s⟩) :=
  execEnclsEcreate_accepted (copied h) (accepted ha)

/-- Whatever is not the default is listed. -/
theorem lookup_listed {α : Type} (d : α) (t : List (Nat × α)) (k : Nat) :
    tableLookup d t k = d ∨ (k, tableLookup d t k) ∈ t := by
  induction t with
  | nil => exact .inl rfl
  | cons e t ih =>
    obtain ⟨k', v⟩ := e
    simp only [tableLookup]
    split
    · exact .inl rfl
    · split
      · rename_i h; exact .inr (by simp [h])
      · rcases ih with h | h
        · exact .inl h
        · exact .inr (List.mem_cons_of_mem _ h)

/-- The invariant as one closed test. -/
def chkInv (s : State) : Bool :=
  s.mem.wf && tableWf EpcmEntry.empty s.epcm && tableWf SecsHidden.empty s.secsx && decide (s.nextEid < 2 ^ s.cfg.eidBits) &&
    s.epcm.all (fun e => !e.2.valid || frameInEpc s.cfg e.1) && s.cfg.wf

theorem inv_of {s : State} (h : chkInv s = true) : s.Inv := by
  simp only [chkInv, Bool.and_eq_true, decide_eq_true_eq] at h
  obtain ⟨⟨⟨⟨⟨h1, h2⟩, h3⟩, h4⟩, h5⟩, h6⟩ := h
  refine ⟨h1, h2, h3, h4, fun p hp => ?_, h6⟩
  rcases lookup_listed EpcmEntry.empty s.epcm p with h | h
  · rw [State.epcmAt, h] at hp; exact absurd hp (by decide)
  · have := List.all_eq_true.1 h5 _ h
    rw [State.epcmAt] at hp
    simpa [hp] using this

/-! ### Two steps and the hash -/

theorem s0_copies : copies s0 = true := by decide +kernel
theorem s0_accepts : secsRejected s0.cfg (page s0) = false := by decide +kernel
theorem s0_inv : s0.Inv := inv_of (by decide +kernel)
theorem step_s0 : step s0 = exec .enclsEcreate s0 := by rfl

/-- V20: the measurement, the identifier and the counter. -/
theorem test_completion : ∃ t, step s0 = .next t ∧ t.secsxAt 0x80000 = ⟨false, 1, 7, 0, 0x80000000,
    ⟨0x0c20fec8, 0xe7b50bcb, 0xfca1fc48, 0x2b096022, 0x0cdf571a, 0x389ee074, 0xa54391b4, 0xdc469308⟩⟩ ∧
    t.nextEid = 8 ∧ t.pc = 0x400003 ∧ (t.epcmAt 0x80000).valid = true :=
  ⟨_, step_s0.trans (completes s0_copies s0_accepts), by decide +kernel⟩

/-- V53: all CET fields; the bitmap offset is measured. -/
theorem test_measurement_with_cet : ecreateMeasurement (ibt (ss s0)).cfg
    (page (attrs 0x44 (secs 32 1 0x3F (secs 24 8 0x1000 s0)))) =
    ⟨0x2699923e, 0xb33c4be5, 0x4a9d65e2, 0x7ced3761, 0xcb96c12f, 0x03ef8dee, 0xcee1493f, 0xa3f649d0⟩ := by decide +kernel

/-! ### Witnesses: encoding and stepping -/

theorem witness_DecoderAcceptsOnlyTheEncoding :
    decode [0x0F#8, 0x01#8, 0xCF#8] = .ok (.enclsEcreate, []) := by rfl

/-- Outside 64-bit mode, `pc` at the last three addresses below 2^32, its instruction placed at 80010000H, above the EPC. -/
def atTop : State := State.withFetchWord { s0 with mode64 := false, pc := 0xFFFFFFFD } 24 0xCF010F

/-- The hypotheses of the statement, for three bytes at consecutive physical addresses from `a`. -/
def chkFetch (s : State) (a : Nat) : Bool :=
  s.translate s.instrPointer .read == some a && s.translate (s.instrPointer + 1#64) .read == some (a + 1) &&
    s.translate (s.instrPointer + 2#64) .read == some (a + 2) && !frameInEpc s.cfg (frameOf a) &&
    !frameInEpc s.cfg (frameOf (a + 1)) && !frameInEpc s.cfg (frameOf (a + 2)) &&
    [s.mem.read a, s.mem.read (a + 1), s.mem.read (a + 2)] == encode .enclsEcreate

theorem witness_StepRunsDecodedInstruction : chkFetch s0 0x400000 = true ∧ chkFetch atTop 0x80010000 = true := by
  decide +kernel

/-! ### Witnesses: addresses and fields -/

theorem witness_EffectiveAndLinearAddresses :
    s0.mode64 = true ∧ (mode32 s0).mode64 = false ∧ (mode32 s0).effective 0xFFFFFFFF00100000 = 0x100000 := by
  decide +kernel

/-- A segment of limit `last`, with a line of its own for the 32 bytes of PAGEINFO in both modes if `ok` is given. -/
def segment (last : Word32) (ok : Option Bool) : DataSegment where
  base   := 0
  first  := 0
  last   := last
  listed := match ok with
    | none   => []
    | some b => [⟨false, 0x100000, 0x100000, 32, b⟩, ⟨true, 0x100000, 0x100000, 32, b⟩]

/-- Nothing listed, in both modes; outside 64-bit mode the last byte at the limit, and one beyond it (V27, V28). -/
theorem witness_SegmentCheckCoversEveryByte :
    s0.ds.listed = [] ∧ s0.dsOk 0x00007FFFFFFFFFFF 1 = true ∧ s0.dsOk 0x0000800000000000 1 = false ∧
    State.dsOk { mode32 s0 with ds := segment 0x10001F none } 0x100000 32 = true ∧
    State.dsOk { mode32 s0 with ds := segment 0x10001E none } 0x100000 32 = false := by decide +kernel

/-- A line that answers against the limit either way; in 64-bit mode it can refuse and not admit. -/
theorem witness_SegmentCheckCoversEveryByte_listed :
    State.dsOk { mode32 s0 with ds := segment 0xFFFFF (some true) } 0x100000 32 = true ∧
    State.dsOk { mode32 s0 with ds := segment 0xFFFFFFFF (some false) } 0x100000 32 = false ∧
    State.dsOk { s0 with ds := { segment 0 none with listed := [⟨true, 0, 0xFFFFFFFFFFFFFFFF, 32, false⟩] } } 0 32 = false ∧
    State.dsOk { s0 with ds := { segment 0 none with listed := [⟨true, 0, 0xFFFFFFFFFFFFFFFF, 32, true⟩] } }
      0x0000800000000000 32 = false := by decide +kernel

/-- The ends of the range of LA_BITS and of the canonical addresses. -/
theorem witness_CanonicalMeansHighBitsEqual :
    canonical 48 0x00007FFFFFFFFFFF = true ∧ canonical 48 0x0000800000000000 = false ∧
    canonical 48 0xFFFF800000000000 = true ∧ canonical 48 0xFFFF7FFFFFFFFFFF = false ∧
    canonical 1 0xFFFFFFFFFFFFFFFF = true ∧ canonical 1 1 = false ∧ canonical 64 0x8000000000000000 = true := by
  decide +kernel

/-- The first and the last byte of a field at the end of its structure (20_memory.md R64). -/
theorem witness_FieldsAreLittleEndian :
    fieldNat [0xAA, 0x34, 0x12] ⟨1, 2⟩ = 0x1234 ∧ fieldNat [0xAA, 0x34, 0x12] ⟨1, 2⟩ / 2 ^ (8 * 1) % 256 = 0x12 := by
  decide +kernel

/-! ### Witnesses: refusals -/

/-- One start state outside each premise. -/
def outsidePremises : List State :=
  [{ s0 with gpr := { s0.gpr with rax := 1 } }, { s0 with cpl := 3 }, { s0 with inEnclave := true },
   { s0 with sgxEnabled := false }, conf (fun c => { c with sgx1 := false }) s0, { s0 with inSmm := true },
   { s0 with interruptPending := true }]

theorem test_premise_refusals : outsidePremises.map premiseRefusal =
    [Refusal.otherLeaf, .notPrivileged, .insideEnclave, .sgxNotEnabled, .sgxNotEnabled, .insideSmm, .interruptPending].map
      some := by decide +kernel

/-- `pc` at the last value that fits and at the first that overflows, in either mode. -/
theorem test_pc_overflow :
    [0xFFFFFFFFFFFFFFFC, 0xFFFFFFFFFFFFFFFD].map (fun v => premiseRefusal { s0 with pc := v }) = [none, some .pcOverflow] ∧
    [0xFFFFFFFC, 0xFFFFFFFD].map (fun v => premiseRefusal { mode32 s0 with pc := v }) = [none, some .pcOverflow] := by
  decide +kernel

theorem witness_RefusedOutsidePremises : ∀ s ∈ outsidePremises, ¬ Premises s := by
  have h : ∀ s ∈ outsidePremises, premiseRefusal s ≠ none := by decide +kernel
  exact fun s hs hp => h s hs (premiseRefusal_none.2 hp)

/-- PAGEINFO, SECINFO and the source page in the first and the last frame of the EPC (V25, V29). -/
theorem witness_SourceInsideEpcIsRefused :
    (ReachesPageinfo (rbx 0x200000 s0) 0x80000000 ∧
      (rbx 0x200000 s0).translate ((rbx 0x200000 s0).lin (rbx 0x200000 s0).eaRbx) .read = some 0x80000000) ∧
    (∃ s pageinfo, ReachesSecinfo s 0x80000000 pageinfo ∧
      s.translate (s.lin (tmpSecinfo s pageinfo)) .read = some 0x8000F000 ∧ frameInEpc s.cfg (frameOf 0x8000F000) = true) ∧
    (∃ s pageinfo, ReachesCopy s 0x80000000 pageinfo ∧
      s.translate (s.lin (tmpSrcpge s pageinfo)) .read = some 0x80000000 ∧
      frameInEpc s.cfg (frameOf 0x80000000) = true) :=
  ⟨⟨pageinfo_of (by decide +kernel), by decide +kernel⟩,
   ⟨pinfo 16 8 0x20F000 s0, _, secinfo_of (a := 0x100000) (by decide +kernel), by decide +kernel⟩,
   ⟨pinfo 8 8 0x200000 s0, _, copy_of (a := 0x100000) (b := 0x102000) (by decide +kernel), by decide +kernel⟩⟩

/-- S0 with one more line of the page tables: linear 600000H goes to physical 7FFFFFF0H, 16 bytes below the EPC. -/
def crossing (s : State) : State := { s with paging := ⟨0x600000, 0x1000, 0x7FFFFFF0, true, true⟩ :: s.paging }

theorem crossing_outside : frameInEpc s0.cfg (frameOf 0x7FFFFFF0) = false := by decide +kernel

/-- The first byte outside the EPC and the last byte inside it, for each structure. -/
theorem witness_SourceInsideEpcIsRefused_last_byte :
    (∃ s, ReachesPageinfo s 0x80000000 ∧ s.translate (s.lin s.eaRbx) .read = some 0x7FFFFFF0 ∧
      frameInEpc s.cfg (frameOf (0x7FFFFFF0 + 32 - 1)) = true) ∧
    (∃ s pageinfo, ReachesSecinfo s 0x80000000 pageinfo ∧
      s.translate (s.lin (tmpSecinfo s pageinfo)) .read = some 0x7FFFFFF0 ∧
      frameInEpc s.cfg (frameOf (0x7FFFFFF0 + 64 - 1)) = true) ∧
    (∃ s pageinfo, ReachesCopy s 0x80000000 pageinfo ∧
      s.translate (s.lin (tmpSrcpge s pageinfo)) .read = some 0x7FFFFFF0 ∧
      frameInEpc s.cfg (frameOf (0x7FFFFFF0 + 4096 - 1)) = true) :=
  ⟨⟨crossing (rbx 0x600000 s0), pageinfo_of (by decide +kernel), by decide +kernel⟩,
   ⟨crossing (pinfo 16 8 0x600000 s0), _, secinfo_of (a := 0x100000) (by decide +kernel), by decide +kernel⟩,
   ⟨crossing (pinfo 8 8 0x600000 s0), _, copy_of (a := 0x100000) (b := 0x102000) (by decide +kernel), by decide +kernel⟩⟩

theorem witness_NoOtherRefusalWithinPremises :
    Premises (pinfo 8 8 0x200000 s0) ∧
      exec .enclsEcreate (pinfo 8 8 0x200000 s0) = .refused (.sourceInsideEpc .sourcePage) :=
  ⟨premises_of (by decide +kernel),
   execEnclsEcreate_early (pinfo 8 8 0x200000 s0) (.refuse (.sourceInsideEpc .sourcePage))
    (premises_of (by decide +kernel)) (.sourceInside 0x80000000 _
      (copy_of (a := 0x100000) (b := 0x102000) (by decide +kernel)) 0x80000000 (by decide +kernel) (by decide +kernel))⟩

/-! ### Witnesses: the checks before the copy -/

/-- V1, and an address that is not canonical. -/
theorem witness_PageinfoAddressFaults :
    (Premises (rbx 0x100010 s0) ∧ ((rbx 0x100010 s0).lin (rbx 0x100010 s0).eaRbx).toNat % 32 ≠ 0) ∧
    (Premises (rbx 0x0000800000000000 s0) ∧
      (rbx 0x0000800000000000 s0).dsOk (rbx 0x0000800000000000 s0).eaRbx 32 = false) :=
  ⟨⟨premises_of (by decide +kernel), by decide +kernel⟩, premises_of (by decide +kernel), by decide +kernel⟩

/-- V2, V8. -/
theorem witness_DestinationAddressFaults :
    (Premises (rcx 0x200800 s0) ∧ ((rcx 0x200800 s0).lin (rcx 0x200800 s0).eaRcx).toNat % 4096 ≠ 0) ∧
    (Premises (rcx 0x0000800000200000 s0) ∧
      (rcx 0x0000800000200000 s0).dsOk (rcx 0x0000800000200000 s0).eaRcx 4096 = false) :=
  ⟨⟨premises_of (by decide +kernel), by decide +kernel⟩, premises_of (by decide +kernel), by decide +kernel⟩

/-- V5, V4. -/
theorem witness_DestinationOutsideEpcPageFaults :
    (ReachesDest (rcx 0x500000 s0) ∧
      (rcx 0x500000 s0).translate ((rcx 0x500000 s0).lin (rcx 0x500000 s0).eaRcx) .write = none) ∧
    (ReachesDest (rcx 0x300000 s0) ∧
      (rcx 0x300000 s0).translate ((rcx 0x300000 s0).lin (rcx 0x300000 s0).eaRcx) .write = some 0x300000 ∧
      frameInEpc (rcx 0x300000 s0).cfg (frameOf 0x300000) = false) :=
  ⟨⟨dest_of (by decide +kernel), by decide +kernel⟩, dest_of (by decide +kernel), by decide +kernel⟩

/-- V6, V15, V36. -/
theorem witness_UnreadableSourcePageFaults :
    (ReachesPageinfo (rbx 0x600000 s0) 0x80000000 ∧
      (rbx 0x600000 s0).translate ((rbx 0x600000 s0).lin (rbx 0x600000 s0).eaRbx) .read = none) ∧
    (∃ s pageinfo, ReachesSecinfo s 0x80000000 pageinfo ∧ s.translate (s.lin (tmpSecinfo s pageinfo)) .read = none) ∧
    (∃ s pageinfo, ReachesCopy s 0x80000000 pageinfo ∧ s.translate (s.lin (tmpSrcpge s pageinfo)) .read = none) :=
  ⟨⟨pageinfo_of (by decide +kernel), by decide +kernel⟩,
   ⟨pinfo 16 8 0x700000 s0, _, secinfo_of (a := 0x100000) (by decide +kernel), by decide +kernel⟩,
   ⟨pinfo 8 8 0x800000 s0, _, copy_of (a := 0x100000) (b := 0x102000) (by decide +kernel), by decide +kernel⟩⟩

/-- V9, V10, and each address where it is not canonical. -/
theorem witness_SourceAddressesFault :
    (∃ s pageinfo, ReachesFields s 0x80000000 pageinfo ∧ (s.lin (tmpSrcpge s pageinfo)).toNat % 4096 ≠ 0) ∧
    (∃ s pageinfo, ReachesFields s 0x80000000 pageinfo ∧ (s.lin (tmpSecinfo s pageinfo)).toNat % 64 ≠ 0) ∧
    (∃ s pageinfo, ReachesFields s 0x80000000 pageinfo ∧ s.dsOk (tmpSrcpge s pageinfo) 4096 = false) ∧
    (∃ s pageinfo, ReachesFields s 0x80000000 pageinfo ∧ s.dsOk (tmpSecinfo s pageinfo) 64 = false) :=
  ⟨⟨pinfo 8 8 0x101800 s0, _, fields_of (a := 0x100000) (by decide +kernel), by decide +kernel⟩,
   ⟨pinfo 16 8 0x102020 s0, _, fields_of (a := 0x100000) (by decide +kernel), by decide +kernel⟩,
   ⟨pinfo 8 8 0x800000000000 s0, _, fields_of (a := 0x100000) (by decide +kernel), by decide +kernel⟩,
   ⟨pinfo 16 8 0x800000000000 s0, _, fields_of (a := 0x100000) (by decide +kernel), by decide +kernel⟩⟩

/-- V11, and V14 with its highest bit. -/
theorem witness_UnusedPageinfoFieldsFault :
    (∃ s pageinfo, ReachesFields s 0x80000000 pageinfo ∧ fieldNat pageinfo s.cfg.pageinfo.linaddr = 1) ∧
    (∃ s pageinfo, ReachesFields s 0x80000000 pageinfo ∧ fieldNat pageinfo s.cfg.pageinfo.secs = 2 ^ 63) :=
  ⟨⟨pinfo 0 8 1 s0, _, fields_of (a := 0x100000) (by decide +kernel), by decide +kernel⟩,
   ⟨pinfo 24 8 0x8000000000000000 s0, _, fields_of (a := 0x100000) (by decide +kernel), by decide +kernel⟩⟩

/-- V18 (the lowest reserved bit), the highest reserved bit, V16. -/
theorem witness_SecinfoContentFaults :
    (∃ s pageinfo content, ReachesSecinfoContent s 0x80000000 pageinfo content ∧
      leNat content &&& s.cfg.secinfo.reserved.toNat = 2 ^ 6) ∧
    (∃ s pageinfo content, ReachesSecinfoContent s 0x80000000 pageinfo content ∧
      leNat content &&& s.cfg.secinfo.reserved.toNat = 2 ^ 511) ∧
    (∃ s pageinfo content, ReachesSecinfoContent s 0x80000000 pageinfo content ∧
      secinfoPt s.cfg content ≠ s.cfg.ptSecs.toNat) :=
  ⟨⟨put 0x102000 1 0x40 s0, _, _, content_of (a := 0x100000) (b := 0x102000) (by decide +kernel), by decide +kernel⟩,
   ⟨put 0x10203F 1 0x80 s0, _, _, content_of (a := 0x100000) (b := 0x102000) (by decide +kernel), by decide +kernel⟩,
   ⟨put 0x102001 1 2 s0, _, _, content_of (a := 0x100000) (b := 0x102000) (by decide +kernel), by decide +kernel⟩⟩

/-- V19: all six bits set beside none. -/
theorem witness_SecinfoPermissionBitsNotTested :
    s0.cfg.secinfo = Config.defaultSecinfo ∧ (0x00#8).toNat / 64 = (0x3F#8).toNat / 64 ∧
    secinfoOk s0.cfg (0x3F#8 :: List.replicate 63 0#8) = true := by decide +kernel

/-- V31; V30 and V32; V33: the entry both in use and valid. -/
theorem witness_EntryInUseExitsOrFaults :
    (∃ pageinfo, ReachesEntry (guest (lock s0)) 0x80000000 pageinfo ∧
      ((guest (lock s0)).epcmAt 0x80000).lockHeld = true ∧ (guest (lock s0)).vmxNonRoot = true ∧
      (guest (lock s0)).epcVirtExt = true) ∧
    (∃ pageinfo, ReachesEntry (lock s0) 0x80000000 pageinfo ∧ ((lock s0).epcmAt 0x80000).lockHeld = true ∧
      ¬ ((lock s0).vmxNonRoot = true ∧ (lock s0).epcVirtExt = true)) ∧
    (∃ s pageinfo, ReachesEntry s 0x80000000 pageinfo ∧ (s.epcmAt 0x80000).lockHeld = true ∧
      (s.epcmAt 0x80000).valid = true ∧ s.vmxNonRoot = true ∧ s.epcVirtExt = false) :=
  ⟨⟨_, entry_of (a := 0x100000) (b := 0x102000) (by decide +kernel), by decide +kernel⟩,
   ⟨_, entry_of (a := 0x100000) (b := 0x102000) (by decide +kernel), by decide +kernel⟩,
   ⟨State.setEpcm { s0 with vmxNonRoot := true } 0x80000 { EpcmEntry.empty with valid := true, lockHeld := true }, _,
    entry_of (a := 0x100000) (b := 0x102000) (by decide +kernel), by decide +kernel⟩⟩

/-- V34. -/
theorem witness_ValidEntryPageFaults :
    ∃ pageinfo, ReachesEntry (valid s0) 0x80000000 pageinfo ∧ ((valid s0).epcmAt 0x80000).lockHeld = false ∧
      ((valid s0).epcmAt 0x80000).valid = true :=
  ⟨_, entry_of (a := 0x100000) (b := 0x102000) (by decide +kernel), by decide +kernel⟩

/-! ### Witnesses: the checks on the copy. Each gives a state that reaches the copy and a clause that its SECS meets. -/

/-- V41, V42, V43. -/
theorem witness_BadXfrmFaults :
    (∃ s, Copied s 0x80000000 (page s) ∧ (secsXfrm s.cfg (sec s)).toNat % 4 = 1) ∧
    (∃ s, Copied s 0x80000000 (page s) ∧ (secsXfrm s.cfg (sec s)).toNat % 4 = 2) ∧
    (∃ s, Copied s 0x80000000 (page s) ∧ fnTableAt s.cfg.xfrmIllegal (secsXfrm s.cfg (sec s)) = true) :=
  ⟨⟨secs 56 8 1 s0, copied (by decide +kernel), by decide +kernel⟩,
   ⟨secs 56 8 2 s0, copied (by decide +kernel), by decide +kernel⟩,
   ⟨secs 56 8 0xB s0, copied (by decide +kernel), by decide +kernel⟩⟩

/-- V45, V46; V47 and the bitmap without IBT; V48; V49, V50. -/
theorem witness_BadCetFieldsFault :
    (∃ s, Copied s 0x80000000 (page s) ∧ secsCet s.cfg (sec s) = false ∧ (sec s).cetAttributes ≠ 0) ∧
    (∃ s, Copied s 0x80000000 (page s) ∧ secsCet s.cfg (sec s) = false ∧ (sec s).cetLegBitmapOffset ≠ 0#64) ∧
    (∃ s, Copied s 0x80000000 (page s) ∧ s.cfg.cetIbt = false ∧ (sec s).cetAttributes / 4 % 16 ≠ 0) ∧
    (∃ s, Copied s 0x80000000 (page s) ∧ s.cfg.cetIbt = false ∧ (sec s).cetLegBitmapOffset ≠ 0#64) ∧
    (∃ s, Copied s 0x80000000 (page s) ∧ s.cfg.cetSs = false ∧ (sec s).cetAttributes % 4 ≠ 0) ∧
    (∃ s, Copied s 0x80000000 (page s) ∧ (sec s).cetAttributes &&& s.cfg.cetReserved ≠ 0) ∧
    (∃ s, Copied s 0x80000000 (page s) ∧ (sec s).cetLegBitmapOffset.toNat % 4096 ≠ 0) :=
  ⟨⟨secs 32 1 1 s0, copied (by decide +kernel), by decide +kernel⟩,
   ⟨secs 24 8 0x1000 s0, copied (by decide +kernel), by decide +kernel⟩,
   ⟨attrs 0x44 (secs 32 1 4 s0), copied (by decide +kernel), by decide +kernel⟩,
   ⟨attrs 0x44 (secs 24 8 0x1000 s0), copied (by decide +kernel), by decide +kernel⟩,
   ⟨attrs 0x44 (secs 32 1 1 s0), copied (by decide +kernel), by decide +kernel⟩,
   ⟨attrs 0x44 (ibt (ss (secs 32 1 0x40 s0))), copied (by decide +kernel), by decide +kernel⟩,
   ⟨attrs 0x44 (ibt (secs 24 8 0x800 s0)), copied (by decide +kernel), by decide +kernel⟩⟩

/-- V51 (a 64-bit enclave) and V52 (another). -/
theorem witness_CetBitmapPlaceFaults :
    (∃ s, Copied s 0x80000000 (page s) ∧ secsMode64 s.cfg (sec s) = true ∧
      canonical s.cfg.laBits ((sec s).baseaddr + (sec s).cetLegBitmapOffset) = false) ∧
    (∃ s, Copied s 0x80000000 (page s) ∧ secsMode64 s.cfg (sec s) = false ∧
      ((sec s).baseaddr + (sec s).cetLegBitmapOffset).toNat = 2 ^ 32) :=
  ⟨⟨attrs 0x44 (ibt (secs 8 8 0x00007FFFFFFFE000 (secs 24 8 0x2000 s0))), copied (by decide +kernel), by decide +kernel⟩,
   ⟨attrs 0x40 (ibt (secs 8 8 0xFFFFE000 (secs 24 8 0x2000 s0))), copied (by decide +kernel), by decide +kernel⟩⟩

/-- V55; the highest bit. -/
theorem witness_UnsupportedMiscselectFaults :
    (∃ s, Copied s 0x80000000 (page s) ∧ (sec s).miscselect.getLsbD 1 = true ∧ s.cfg.miscSupported.getLsbD 1 = false) ∧
    (∃ s, Copied s 0x80000000 (page s) ∧ (sec s).miscselect.getLsbD 31 = true ∧ s.cfg.miscSupported.getLsbD 31 = false) :=
  ⟨⟨secs 20 4 2 s0, copied (by decide +kernel), by decide +kernel⟩,
   ⟨secs 20 4 0x80000000 s0, copied (by decide +kernel), by decide +kernel⟩⟩

/-- V58: one byte too many. -/
theorem witness_SmallSsaFrameFaults :
    ∃ s, Copied s 0x80000000 (page s) ∧ (sec s).ssaframesize.toNat * 4096 + 1 =
      fnTableAt s.cfg.xsaveSize (secsXfrm s.cfg (sec s)) + s.cfg.gprSize +
        fnTableAt s.cfg.miscRegionSize (sec s).miscselect :=
  ⟨conf (fun c => { c with gprSize := 4097 - 576 }) s0, copied (by decide +kernel), by decide +kernel⟩

/-- V60, V62. -/
theorem witness_BaseaddrOutOfRangeFaults :
    (∃ s, Copied s 0x80000000 (page s) ∧ secsMode64 s.cfg (sec s) = true ∧
      canonical s.cfg.laBits (sec s).baseaddr = false) ∧
    (∃ s, Copied s 0x80000000 (page s) ∧ secsMode64 s.cfg (sec s) = false ∧ (sec s).baseaddr.toNat = 2 ^ 32) :=
  ⟨⟨secs 8 8 0x0000800000000000 s0, copied (by decide +kernel), by decide +kernel⟩,
   ⟨attrs 0 (secs 8 8 0x100000000 s0), copied (by decide +kernel), by decide +kernel⟩⟩

/-- V66, V64: equal to the bound. -/
theorem witness_SizeAtBoundFaults :
    (∃ s, Copied s 0x80000000 (page s) ∧ secsMode64 s.cfg (sec s) = false ∧
      2 ^ s.cfg.maxSizeNot64.toNat = (sec s).size.toNat) ∧
    (∃ s, Copied s 0x80000000 (page s) ∧ secsMode64 s.cfg (sec s) = true ∧ 2 ^ s.cfg.maxSize64.toNat = (sec s).size.toNat) :=
  ⟨⟨attrs 0 (secs 0 8 0x80000000 s0), copied (by decide +kernel), by decide +kernel⟩,
   ⟨secs 0 8 0x1000000000 s0, copied (by decide +kernel), by decide +kernel⟩⟩

theorem not_two_pow_0x3000 : ∀ k, 0x3000 ≠ 2 ^ k := by
  intro k h
  have h3 : 3 ∣ 2 ^ k := ⟨0x1000, by omega⟩
  have := (Nat.prime_three.dvd_of_dvd_pow h3)
  omega

/-- V69 (the power of two below 8192), one below 8192, V70, V71. -/
theorem witness_BadSizeOrMisalignedBaseFaults :
    (∃ s, Copied s 0x80000000 (page s) ∧ (sec s).size.toNat = 4096) ∧
    (∃ s, Copied s 0x80000000 (page s) ∧ (sec s).size.toNat = 8191) ∧
    (∃ s, Copied s 0x80000000 (page s) ∧ 8192 ≤ (sec s).size.toNat ∧ ∀ k, (sec s).size.toNat ≠ 2 ^ k) ∧
    (∃ s, Copied s 0x80000000 (page s) ∧ (sec s).size.toNat = 8192 ∧ ¬ (sec s).size.toNat ∣ (sec s).baseaddr.toNat) :=
  ⟨⟨secs 0 8 0x1000 s0, copied (by decide +kernel), by decide +kernel⟩,
   ⟨secs 0 8 0x1FFF s0, copied (by decide +kernel), by decide +kernel⟩,
   ⟨secs 0 8 0x3000 s0, copied (by decide +kernel), by decide +kernel, by
      rw [show (sec (secs 0 8 0x3000 s0)).size.toNat = 0x3000 by decide +kernel]; exact not_two_pow_0x3000⟩,
   ⟨secs 8 8 0x1000 s0, copied (by decide +kernel), by decide +kernel⟩⟩

/-- V74 (bit 0); the highest bit; the first and the last byte of a reserved field (V77, V79); V82, V83. -/
theorem witness_AttributesReservedConfigFault :
    (∃ s, Copied s 0x80000000 (page s) ∧ (sec s).attributes.getLsbD 0 = true ∧ s.cfg.attributesMask.getLsbD 0 = false) ∧
    (∃ s, Copied s 0x80000000 (page s) ∧ (sec s).attributes.getLsbD 127 = true ∧ s.cfg.attributesMask.getLsbD 127 = false) ∧
    (∃ s, Copied s 0x80000000 (page s) ∧ secsReservedZero s.cfg (page s) = false ∧ s.cfg.secsReservedListed = []) ∧
    (∃ s, Copied s 0x80000000 (page s) ∧ secsReservedZero s.cfg (page s) = false ∧ (page s).getD 4095 0#8 = 0xFF#8) ∧
    (∃ s, Copied s 0x80000000 (page s) ∧ secsKss s.cfg (sec s) = false ∧ (sec s).configid ≠ 0) ∧
    (∃ s, Copied s 0x80000000 (page s) ∧ secsKss s.cfg (sec s) = false ∧ (sec s).configsvn ≠ 0) :=
  ⟨⟨attrs 5 s0, copied (by decide +kernel), by decide +kernel⟩,
   ⟨secs 63 1 0x80 s0, copied (by decide +kernel), by decide +kernel⟩,
   ⟨secs 33 1 1 s0, copied (by decide +kernel), by decide +kernel⟩,
   ⟨secs 4095 1 0xFF s0, copied (by decide +kernel), by decide +kernel⟩,
   ⟨secs 192 1 1 s0, copied (by decide +kernel), by decide +kernel⟩,
   ⟨secs 260 1 1 s0, copied (by decide +kernel), by decide +kernel⟩⟩

/-- S0's page passes and is not listed; with the first and the last byte of a reserved field not zero it fails; a page listed as
failing fails, also with another ISVSVN in it. -/
theorem witness_ReservedFieldsAreZeroBytes :
    (page s0).length = 4096 ∧ secsReservedZero s0.cfg (page s0) = true ∧
    secsReservedZero s0.cfg (page (secs 33 1 1 s0)) = false ∧ secsReservedZero s0.cfg (page (secs 4095 1 1 s0)) = false ∧
    (Config.initial.secsReservedListed = [] ∧ Config.initial.secsReserved = Config.defaultSecsReserved) ∧
    ∀ p : List Byte, { s0.cfg with secsReservedListed := [(blankOverwritten s0.cfg p, false)] }.secsReservedListed =
      (blankOverwritten { s0.cfg with secsReservedListed := [(blankOverwritten s0.cfg p, false)] } p, false) :: [] :=
  ⟨(copied s0_copies).length, by decide +kernel, by decide +kernel, by decide +kernel, by decide, fun _ => rfl⟩

/-! ### Witnesses: completion -/

/-- V20: the hypotheses of every statement about a completion (EcreateCompletesWithThisState, CompletesExactlyWhenAllConditionsHold,
CompletionSetsEpcmEntry, CompletionSetsHiddenFieldsAndCounter, CompletionZeroesIsvFields, CompletionMeasuresTheBlock,
SecondEcreateOnSamePagePageFaults, CompletionIgnoresVirtualisation). -/
theorem witness_completion : s0.Inv ∧ Copied s0 0x80000000 (page s0) ∧ Accepts s0.cfg (page s0) (sec s0) ∧
    (∃ t, exec .enclsEcreate s0 = .next t ∧ t.pcOverflows 3 = false) :=
  ⟨s0_inv, copied s0_copies, accepted s0_accepts, _, completes s0_copies s0_accepts, by decide +kernel⟩

/-- The same for an enclave that is not 64-bit, a Boolean clause of `Accepts` the other way (V63), and with CET_IBT (V53). -/
theorem witness_completion_other_branches :
    (∃ s, Copied s 0x80000000 (page s) ∧ Accepts s.cfg (page s) (sec s) ∧ secsMode64 s.cfg (sec s) = false) ∧
    (∃ s, Copied s 0x80000000 (page s) ∧ Accepts s.cfg (page s) (sec s) ∧ s.cfg.cetIbt = true ∧
      (sec s).cetLegBitmapOffset.toNat = 0x1000) :=
  ⟨⟨attrs 0 s0, copied (by decide +kernel), accepted (by decide +kernel), by decide +kernel⟩,
   ⟨attrs 0x44 (ibt (ss (secs 32 1 0x3F (secs 24 8 0x1000 s0)))), copied (by decide +kernel), accepted (by decide +kernel),
    by decide +kernel⟩⟩

/-- The first and the last byte of the page, and the bytes beside the three fields. -/
theorem witness_CompletionCopiesThePage :
    ∀ k ∈ [0, 63, 96, 255, 260, 4095], ∀ f ∈ [s0.cfg.secs.mrenclave, s0.cfg.secs.isvsvn, s0.cfg.secs.isvprodid],
      k < f.off ∨ f.off + f.len ≤ k := by decide +kernel

/-! ### Witnesses: frames, invariants, two executions -/

theorem exec_early : exec .enclsEcreate (rbx 0x100010 s0) = .fault (.gp 0 0x400000 (rbx 0x100010 s0)) :=
  execEnclsEcreate_early (rbx 0x100010 s0) .gp (premises_of (by decide +kernel)) (.pageinfoAddress (by decide +kernel))

theorem exec_valid : exec .enclsEcreate (valid s0) = .fault (.pf 0x200000 0 0x400000 (valid s0)) :=
  execEnclsEcreate_early (valid s0) (.pf .destValid 0x200000) (premises_of (by decide +kernel))
    (.entryValid 0x80000000 _ (entry_of (a := 0x100000) (b := 0x102000) (by decide +kernel)) (by decide +kernel)
      (by decide +kernel))

theorem rejects {s : State} (h : copies s = true) (hr : secsRejected s.cfg (page s) = true) :
    exec .enclsEcreate s = .fault (.gp 0 s.instrPointer (s.forgetEpcData (frameOf 0x80000000))) := by
  rw [exec, execEnclsEcreate_copied (copied h), hr]
  rfl

theorem exec_late : exec .enclsEcreate (secs 56 8 0 s0) =
    .fault (.gp 0 (secs 56 8 0 s0).instrPointer ((secs 56 8 0 s0).forgetEpcData (frameOf 0x80000000))) :=
  rejects (by decide +kernel) (by decide +kernel)

theorem exec_exit : exec .enclsEcreate (guest (lock s0)) =
    .fault (.vmExit ⟨0, 1, 0, 0x80000000, 0x200000⟩ ((guest (lock s0)).setVmcs ⟨0, 1, 0, 0x80000000, 0x200000⟩)) :=
  execEnclsEcreate_early (guest (lock s0)) (.vmExit 0x80000000 0x200000) (premises_of (by decide +kernel))
    (.entryInUse 0x80000000 _ (entry_of (a := 0x100000) (b := 0x102000) (by decide +kernel)) (by decide +kernel))

/-- The kinds of end: complete, a fault before and after the copy, a VM exit. For NoGeneralRegisterChanges, FlagsAreNeitherReadNorWritten,
EverythingElseIsUnchanged, EntryLocksAreAsBefore. -/
theorem witness_endings :
    (s0.Inv ∧ ∃ t, endState (exec .enclsEcreate s0) = some t) ∧
    ((rbx 0x100010 s0).Inv ∧ ∃ t, endState (exec .enclsEcreate (rbx 0x100010 s0)) = some t) ∧
    ((secs 56 8 0 s0).Inv ∧ ∃ t, endState (exec .enclsEcreate (secs 56 8 0 s0)) = some t) ∧
    ((guest (lock s0)).Inv ∧ ∃ t, endState (exec .enclsEcreate (guest (lock s0))) = some t) :=
  ⟨⟨s0_inv, _, congrArg endState (completes s0_copies s0_accepts)⟩,
   ⟨inv_of (by decide +kernel), _, congrArg endState exec_early⟩,
   ⟨inv_of (by decide +kernel), _, congrArg endState exec_late⟩,
   ⟨inv_of (by decide +kernel), _, congrArg endState exec_exit⟩⟩

/-- V1: a fault where the copy is not made. For EndingsBeforeTheCopyChangeNothing. -/
theorem witness_EndingsBeforeTheCopyChangeNothing :
    endState (exec .enclsEcreate (rbx 0x100010 s0)) = some (rbx 0x100010 s0) ∧
    ¬ ∃ pa page, Copied (rbx 0x100010 s0) pa page := by
  refine ⟨congrArg endState exec_early, ?_⟩
  rintro ⟨pa, page, pageinfo, h, -⟩
  exact absurd h.rbxAligned (by decide +kernel)

/-- V1, V40, V34, V31: a fault of each kind. For FaultRecordsAreAsSpecified. -/
theorem witness_FaultRecordsAreAsSpecified :
    (∃ t, exec .enclsEcreate (rbx 0x100010 s0) = .fault (.gp 0 0x400000 t)) ∧
    (∃ t, exec .enclsEcreate (valid s0) = .fault (.pf 0x200000 0 0x400000 t)) ∧
    (∃ v t, exec .enclsEcreate (guest (lock s0)) = .fault (.vmExit v t)) :=
  ⟨⟨_, exec_early⟩, ⟨_, exec_valid⟩, _, _, exec_exit⟩

/-- V1 and V40 (`#GP` before and after the copy), V34 (`#PF`). For RetryWithoutRepairFaultsAlike. -/
theorem witness_RetryWithoutRepairFaultsAlike :
    ((rbx 0x100010 s0).Inv ∧ ∃ code pc t, exec .enclsEcreate (rbx 0x100010 s0) = .fault (.gp code pc t)) ∧
    ((secs 56 8 0 s0).Inv ∧ ∃ code pc t, exec .enclsEcreate (secs 56 8 0 s0) = .fault (.gp code pc t)) ∧
    ((valid s0).Inv ∧ ∃ la code pc t, exec .enclsEcreate (valid s0) = .fault (.pf la code pc t)) :=
  ⟨⟨inv_of (by decide +kernel), _, _, _, exec_early⟩, ⟨inv_of (by decide +kernel), _, _, _, exec_late⟩,
   inv_of (by decide +kernel), _, _, _, _, exec_valid⟩

/-- For StepKeepsInvariant and FaultsKeepInvariant: a step that answers a next state, one that answers a fault. -/
theorem witness_step_invariant :
    (s0.Inv ∧ ∃ t, step s0 = .next t) ∧ ((rbx 0x100010 s0).Inv ∧ ∃ f, step (rbx 0x100010 s0) = .fault f) :=
  ⟨⟨s0_inv, _, step_s0.trans (completes s0_copies s0_accepts)⟩, inv_of (by decide +kernel), _,
   (show step (rbx 0x100010 s0) = exec .enclsEcreate (rbx 0x100010 s0) from rfl).trans exec_early⟩

theorem other_holds {p : Nat} (h : (other s0).holdsSecs p) : p = 0x80001 := by
  rcases lookup_listed EpcmEntry.empty (other s0).epcm p with h' | h'
  · have := h.1; rw [State.epcmAt, h'] at this; exact absurd this (by decide)
  · simp only [other, List.mem_singleton, Prod.mk.injEq] at h'
    exact h'.1

/-- An enclave exists, with the identifier just below the counter: for EnclaveIdsStayDistinct and
ExistingEnclavesAreUndisturbed. -/
theorem witness_existing_enclave :
    (other s0).Inv ∧ (other s0).EidsFresh ∧ (other s0).nextEid + 1 < 2 ^ (other s0).cfg.eidBits ∧
    (∃ t, step (other s0) = .next t ∧ endState (step (other s0)) = some t) ∧ ((other s0).epcmAt 0x80001).valid = true := by
  have hs : step (other s0) = .next (ecreateCommit (other s0) ⟨0x80000000, page (other s0)⟩) :=
    (show step (other s0) = exec .enclsEcreate (other s0) from rfl).trans (completes (by decide +kernel) (by decide +kernel))
  refine ⟨inv_of (by decide +kernel), ⟨fun p hp => ?_, fun p q hp hq hne => ?_⟩, by decide +kernel, ⟨_, hs, ?_⟩,
    by decide +kernel⟩
  · rw [other_holds hp]; decide +kernel
  · exact absurd ((other_holds hp).trans (other_holds hq).symm) hne
  · rw [hs]; rfl

/-- Two completions that agree on the three fields and differ in BASEADDR and in ISVPRODID. For MeasurementDependsOnThreeFields. -/
theorem witness_MeasurementDependsOnThreeFields :
    ∃ s' : State, Copied s' 0x80000000 (page s') ∧ (∃ t', exec .enclsEcreate s' = .next t') ∧ s0.cfg.cetIbt = s'.cfg.cetIbt ∧
      (sec s0).ssaframesize = (sec s').ssaframesize ∧ (sec s0).size = (sec s').size ∧
      (sec s0).baseaddr ≠ (sec s').baseaddr :=
  ⟨secs 8 8 0x2000 (secs 256 2 9 s0), copied (by decide +kernel), ⟨_, completes (by decide +kernel) (by decide +kernel)⟩,
   by decide +kernel⟩

/-- The page of S0 and one whose ISVSVN is 0909H (as V80). For OverwrittenFieldsHaveNoEffect. -/
theorem witness_OverwrittenFieldsHaveNoEffect :
    ∃ page page' : List Byte, cfg0.wf = true ∧ page.length = 4096 ∧ page'.length = 4096 ∧ page ≠ page' ∧
      ∀ k, (∀ f ∈ [cfg0.secs.mrenclave, cfg0.secs.isvsvn, cfg0.secs.isvprodid], k < f.off ∨ f.off + f.len ≤ k) →
        page.getD k 0#8 = page'.getD k 0#8 := by
  have hl : (page s0).length = 4096 := (copied s0_copies).length
  refine ⟨page s0, setField (page s0) ⟨258, 2⟩ fun _ => 9#8, by decide +kernel, hl, by rw [length_setField, hl],
    fun h => ?_, fun k hk => ?_⟩
  · have h1 : (setField (page s0) ⟨258, 2⟩ fun _ => 9#8).getD 258 0#8 = 9#8 := by
      rw [getD_setField _ _ _ (by omega), if_pos (by decide)]
    rw [← h] at h1
    exact absurd h1 (by decide +kernel)
  · have hf : k < 258 ∨ 258 + 2 ≤ k := hk _ (List.mem_cons_of_mem _ (List.mem_cons_self ..))
    by_cases h : k < 4096
    · rw [getD_setField _ _ _ (by omega), if_neg]
      show ¬ (258 ≤ k ∧ k < 258 + 2)
      omega
    · rw [List.getD_eq_default _ _ (by omega), List.getD_eq_default _ _ (by rw [length_setField]; omega)]

/-- In 64-bit mode, the upper half of RAX and a register the instruction does not name differ. -/
theorem witness_UpperHalvesIgnoredOutside64BitMode_rax : ∃ g : Gprs, s0.mode64 = true ∧
    g.rax.toNat % 2 ^ 32 = s0.gpr.rax.toNat % 2 ^ 32 ∧ g.rbx = s0.gpr.rbx ∧ g.rcx = s0.gpr.rcx ∧ g ≠ s0.gpr :=
  ⟨{ s0.gpr with rax := 0xFFFFFFFF00000000, rdx := 1 }, by decide +kernel⟩

/-- S0 outside 64-bit mode, and the same with upper halves in PAGEINFO.SRCPGE and PAGEINFO.SECINFO: every line of the hypothesis,
at the one address that PAGEINFO has. -/
theorem witness_PageinfoUpperHalvesIgnoredOutside64BitMode :
    ∃ (s : State) (m : Memory), s.mode64 = false ∧ m ≠ s.mem ∧ s.translate (s.lin s.eaRbx) .read = some 0x100000 ∧
      (fieldNat (m.readBytes 0x100000 32) s.cfg.pageinfo.linaddr = fieldNat (s.mem.readBytes 0x100000 32) s.cfg.pageinfo.linaddr ∧
        fieldNat (m.readBytes 0x100000 32) s.cfg.pageinfo.secs = fieldNat (s.mem.readBytes 0x100000 32) s.cfg.pageinfo.secs ∧
        fieldNat (m.readBytes 0x100000 32) s.cfg.pageinfo.srcpge % 2 ^ 32 =
          fieldNat (s.mem.readBytes 0x100000 32) s.cfg.pageinfo.srcpge % 2 ^ 32 ∧
        fieldNat (m.readBytes 0x100000 32) s.cfg.pageinfo.secinfo % 2 ^ 32 =
          fieldNat (s.mem.readBytes 0x100000 32) s.cfg.pageinfo.secinfo % 2 ^ 32) ∧
      (s.translate (s.lin (tmpSecinfo s (s.mem.readBytes 0x100000 32))) .read = some 0x102000 ∧
        m.readBytes 0x102000 64 = s.mem.readBytes 0x102000 64) ∧
      (s.translate (s.lin (tmpSrcpge s (s.mem.readBytes 0x100000 32))) .read = some 0x101000 ∧
        m.readBytes 0x101000 4096 = s.mem.readBytes 0x101000 4096) ∧
      ∃ t, exec .enclsEcreate s = .next t :=
  have hw : s0.mem.wf = true := by decide +kernel
  have h1 : (pinfo 20 4 0x80000000 s0).mem.wf = true := Memory.wf_writeBytes hw _ _
  have out : ∀ a, 0x100020 ≤ a → (pinfo 12 4 0x1234 (pinfo 20 4 0x80000000 s0)).mem.read a = s0.mem.read a := fun a ha =>
    (Memory.read_writeBytes_out h1 (.inr (Nat.le_trans (by decide) ha))).trans
      (Memory.read_writeBytes_out hw (.inr (Nat.le_trans (by decide) ha)))
  ⟨mode32 s0, (pinfo 12 4 0x1234 (pinfo 20 4 0x80000000 s0)).mem, rfl, by decide +kernel, by decide +kernel, by decide +kernel,
   ⟨by decide +kernel, Memory.readBytes_congr fun k _ => out _ (by omega)⟩,
   ⟨by decide +kernel, Memory.readBytes_congr fun k _ => out _ (by omega)⟩,
   _, completes (by decide +kernel) (by decide +kernel)⟩

/-- V26: outside 64-bit mode, upper halves that differ. For UpperHalvesIgnoredOutside64BitMode. -/
theorem witness_UpperHalvesIgnoredOutside64BitMode :
    ∃ g : Gprs, (mode32 s0).mode64 = false ∧ (∃ t, exec .enclsEcreate (mode32 s0) = .next t) ∧
      g.rax.toNat % 2 ^ 32 = (mode32 s0).gpr.rax.toNat % 2 ^ 32 ∧ g.rbx.toNat % 2 ^ 32 = (mode32 s0).gpr.rbx.toNat % 2 ^ 32 ∧
      g.rcx.toNat % 2 ^ 32 = (mode32 s0).gpr.rcx.toNat % 2 ^ 32 ∧ g ≠ (mode32 s0).gpr :=
  ⟨{ s0.gpr with rbx := 0xFFFFFFFF00100000, rcx := 0x1234567800200000 }, by decide +kernel,
   ⟨_, completes (by decide +kernel) (by decide +kernel)⟩, by decide +kernel⟩

end Sys2Proof.Tests
end

section
/-! PROOFS. The frame of ENCLS[ECREATE] (10_state.md R23, R24, R43): which parts of the state it can write at all, which
pages it can write, and that the flags register is no input. -/

namespace Sys2Proof.Machine

theorem exec_enclsEcreate (s : State) : exec .enclsEcreate s = execEnclsEcreate s := rfl

/-! ### The parts of the state that can be written -/

/-- `s` with the parts that some rule of ENCLS[ECREATE] writes taken from `t`: `pc`, CR_NEXT_EID, the VMCS fields, memory, the
EPCM, SECSX, and the model's own count of free pages. -/
def State.withWrittenOf (s t : State) : State :=
  { s with
    pc := t.pc, nextEid := t.nextEid, vmcs := t.vmcs, mem := t.mem, epcm := t.epcm, secsx := t.secsx
    freeCount := t.freeCount }

@[simp] theorem State.withWrittenOf_gpr (s t : State) : (s.withWrittenOf t).gpr = s.gpr := rfl
@[simp] theorem State.withWrittenOf_rflags (s t : State) : (s.withWrittenOf t).rflags = s.rflags := rfl

theorem ecreateCommit_eq_withWrittenOf (s : State) (t : CopyPlan) :
    ecreateCommit s t = s.withWrittenOf (ecreateCommit s t) := by
  simp [ecreateCommit, State.withWrittenOf, State.advance, flagsAfterEcreate]

/-- Every state that the instruction leaves is the start state but for the parts of `State.withWrittenOf`. -/
theorem endState_eq_withWrittenOf {s t : State} (h : endState (execEnclsEcreate s) = some t) :
    t = s.withWrittenOf t := by
  rcases endState_cases s t h with
    ⟨rfl, -⟩ | ⟨_, _, -, -, -, -, -, rfl⟩ | ⟨_, _, -, -, -, rfl⟩ | ⟨_, _, -, -, -, rfl⟩
  · rfl
  · rfl
  · rfl
  · exact ecreateCommit_eq_withWrittenOf s _

/-! ### The pages that can be written -/

/-- Page frame `p` is not the one that RCX resolves to (40_ecreate.md R113). -/
def State.notDestination (s : State) (p : Nat) : Prop :=
  ∀ pa, s.translate (s.lin s.eaRcx) .write = some pa → p ≠ frameOf pa

/-- `t` agrees with `s` on the bytes, EPCM entries and hidden records of every page but the destination of `s`. -/
structure SameOutsideDestination (s t : State) : Prop where
  mem   : ∀ a, s.notDestination (frameOf a) → t.mem.read a = s.mem.read a
  epcm  : ∀ p, s.notDestination p → t.epcmAt p = s.epcmAt p
  secsx : ∀ p, s.notDestination p → t.secsxAt p = s.secsxAt p

theorem Copied.ne_of_notDestination {s : State} {pa p : Nat} {page : List Byte} (hc : Copied s pa page)
    (hp : s.notDestination p) : p ≠ frameOf pa :=
  hp pa hc.destination.1

theorem sameOutsideDestination_forgetEpcData {s : State} {pa : Nat} {page : List Byte} (hi : s.Inv)
    (hc : Copied s pa page) : SameOutsideDestination s (s.forgetEpcData (frameOf pa)) where
  mem _ ha := Memory.read_writePage_other hi.memWf (by simp) (hc.ne_of_notDestination ha)
  epcm _ _ := rfl
  secsx _ _ := rfl

theorem sameOutsideDestination_ecreateCommit {s : State} {pa : Nat} {page : List Byte} (hi : s.Inv)
    (hc : Copied s pa page) : SameOutsideDestination s (ecreateCommit s ⟨pa, page⟩) where
  mem _ ha := Memory.read_writePage_other hi.memWf (by simp [hc.length]) (hc.ne_of_notDestination ha)
  epcm p hp := ecreateCommit_epcmAt_ne s pa page p hi (hc.ne_of_notDestination hp)
  secsx p hp := ecreateCommit_secsxAt_ne s pa page p hi (hc.ne_of_notDestination hp)

/-- Every state that the instruction leaves agrees with the start state outside the destination page. -/
theorem endState_sameOutsideDestination {s t : State} (hi : s.Inv) (h : endState (execEnclsEcreate s) = some t) :
    SameOutsideDestination s t := by
  rcases endState_cases s t h with
    ⟨rfl, -⟩ | ⟨_, _, -, -, -, -, -, rfl⟩ | ⟨_, _, hc, -, -, rfl⟩ | ⟨_, _, hc, -, -, rfl⟩
  · exact ⟨fun _ _ => rfl, fun _ _ => rfl, fun _ _ => rfl⟩
  · exact ⟨fun _ _ => rfl, fun _ _ => rfl, fun _ _ => rfl⟩
  · exact sameOutsideDestination_forgetEpcData hi hc
  · exact sameOutsideDestination_ecreateCommit hi hc

/-! ### The flags register is no input -/

section
variable (s : State) (flags : Word64)

theorem premiseRefusal_setFlags : premiseRefusal (s.setFlags flags) = premiseRefusal s := rfl

theorem ecreateChecks_setFlags : ecreateChecks (s.setFlags flags) = ecreateChecks s := rfl

theorem forgetEpcData_setFlags (p : Nat) :
    (s.setFlags flags).forgetEpcData p = (s.forgetEpcData p).setFlags flags := rfl

theorem ecreateCommit_setFlags (t : CopyPlan) :
    ecreateCommit (s.setFlags flags) t = (ecreateCommit s t).setFlags flags := rfl

theorem endWith_setFlags (e : Ending) :
    endWith (s.setFlags flags) e = mapOutcome (·.setFlags flags) (endWith s e) := by
  cases e <;> rfl

theorem ecreateBody_setFlags :
    ecreateBody (s.setFlags flags) = mapOutcome (·.setFlags flags) (ecreateBody s) := by
  unfold ecreateBody
  rw [ecreateChecks_setFlags]
  cases ecreateChecks s with
  | error e => exact endWith_setFlags s flags e
  | ok t =>
    by_cases hr : secsRejected s.cfg t.secs = true
    · simp [hr, forgetEpcData_setFlags, endWith_setFlags]
    · simp [hr, ecreateCommit_setFlags]

/-- With another flags register the instruction answers the same, but for that register. -/
theorem execEnclsEcreate_setFlags :
    execEnclsEcreate (s.setFlags flags) = mapOutcome (·.setFlags flags) (execEnclsEcreate s) := by
  unfold execEnclsEcreate
  rw [premiseRefusal_setFlags]
  cases premiseRefusal s with
  | some r => rfl
  | none => exact ecreateBody_setFlags s flags

end

/-! ### The obligations -/

/-- Settles O44: the general registers are not among the parts that the instruction can write. -/
theorem noGeneralRegisterChanges : Obligations.NoGeneralRegisterChanges := by
  intro s t h
  rw [endState_eq_withWrittenOf h, State.withWrittenOf_gpr]

/-- Settles O45: the flags register is not among the parts that can be written, and no step of the meaning reads it. -/
theorem flagsAreNeitherReadNorWritten : Obligations.FlagsAreNeitherReadNorWritten := by
  intro s flags
  refine ⟨fun t h => ?_, execEnclsEcreate_setFlags s flags⟩
  rw [endState_eq_withWrittenOf h, State.withWrittenOf_rflags]

/-- Settles O46: the registers, modes and parameters are outside the parts that can be written, and of the tables only the
destination page is. -/
theorem everythingElseIsUnchanged : Obligations.EverythingElseIsUnchanged := by
  intro s t hi h
  rw [exec_enclsEcreate] at h
  obtain ⟨hmem, hepcm, hsecsx⟩ := endState_sameOutsideDestination hi h
  rw [endState_eq_withWrittenOf h]
  exact ⟨rfl, rfl, rfl, rfl, rfl, rfl, rfl, rfl, rfl, rfl, rfl, rfl, rfl, rfl, hmem,
    fun p hp => ⟨hepcm p hp, hsecsx p hp⟩⟩

end Sys2Proof.Machine
end

section
/-! PROOFS. What the completion of ENCLS[ECREATE] leaves in the destination page and in its EPCM entry (40_ecreate.md R148
to R161). -/

namespace Sys2Proof.Machine

/-! ### Fields of zero bytes -/

theorem leNat_eq_zero {bs : List Byte} (h : ∀ b ∈ bs, b = 0#8) : leNat bs = 0 := by
  induction bs with
  | nil => rfl
  | cons b bs ih =>
    obtain ⟨hb, hbs⟩ := List.forall_mem_cons.1 h
    simp [leNat, hb, ih hbs]

/-- A field is zero when each of its bytes is; those behind the end of the structure count as zero. -/
theorem fieldNat_eq_zero {bs : List Byte} {f : FieldPos}
    (h : ∀ k, f.off ≤ k → k < f.off + f.len → bs.getD k 0#8 = 0#8) : fieldNat bs f = 0 := by
  refine leNat_eq_zero fun b hb => ?_
  obtain ⟨i, hi, rfl⟩ := List.mem_iff_getElem.1 hb
  have hlen : i < f.len ∧ f.off + i < bs.length := by
    simp only [fieldBytes, List.length_take, List.length_drop] at hi
    omega
  have := h (f.off + i) (by omega) (by omega)
  simpa [fieldBytes, List.getD_eq_getElem, hlen.2] using this

/-! ### The SECS fields share no byte -/

theorem allDisjoint_iff_pairwise {fs : List FieldPos} :
    FieldPos.allDisjoint fs = true ↔ fs.Pairwise (fun f g => f.disjoint g = true) := by
  induction fs with
  | nil => simp [FieldPos.allDisjoint]
  | cons f fs ih => simp [FieldPos.allDisjoint, ih]

theorem secsFields_pairwise_disjoint {c : Config} (h : c.wf = true) :
    c.secs.fields.Pairwise (fun f g => f.disjoint g = true) := by
  have hplaces : c.secsPlacesOk = true := by
    simp only [Config.wf, Bool.and_eq_true] at h
    tauto
  obtain ⟨-, hdisjoint⟩ := (Bool.and_eq_true _ _).mp hplaces
  exact (List.pairwise_append.1 (allDisjoint_iff_pairwise.1 hdisjoint)).1

/-- MRENCLAVE shares no byte with ISVSVN or ISVPRODID, which are behind it in the list of the SECS fields (10_state.md R36). -/
theorem mrenclave_disjoint_isv {c : Config} (h : c.wf = true) {f : FieldPos}
    (hf : f = c.secs.isvprodid ∨ f = c.secs.isvsvn) : c.secs.mrenclave.disjoint f = true := by
  have hfrom : [c.secs.mrenclave, c.secs.mrsigner, c.secs.configid, c.secs.isvprodid, c.secs.isvsvn,
      c.secs.configsvn].Pairwise (fun f g => f.disjoint g = true) := (secsFields_pairwise_disjoint h).drop (i := 7)
  exact List.rel_of_pairwise_cons hfrom (by rcases hf with rfl | rfl <;> simp)

/-! ### The committed page -/

/-- The committed page byte by byte (R150, R151, R153): MRENCLAVE, which is written last, zeros in ISVPRODID and ISVSVN, and
elsewhere the copied byte. -/
theorem getD_committedPage (c : Config) (page : List Byte) {k : Nat} (hk : k < page.length) :
    (committedPage c page).getD k 0#8 =
      if c.secs.mrenclave.off ≤ k ∧ k < c.secs.mrenclave.off + c.secs.mrenclave.len then
        Config.mrenclaveByte (ecreateMeasurement c page) (k - c.secs.mrenclave.off)
      else if (c.secs.isvprodid.off ≤ k ∧ k < c.secs.isvprodid.off + c.secs.isvprodid.len) ∨
          (c.secs.isvsvn.off ≤ k ∧ k < c.secs.isvsvn.off + c.secs.isvsvn.len) then 0#8
      else page.getD k 0#8 := by
  simp only [committedPage, getD_setField, length_setField, hk, ite_or]
  by_cases hm : c.secs.mrenclave.off ≤ k ∧ k < c.secs.mrenclave.off + c.secs.mrenclave.len
  · rw [if_pos hm, if_pos hm]
  · simp only [if_neg hm]

theorem fieldNat_committedPage_isv {c : Config} (h : c.wf = true) (page : List Byte) {f : FieldPos}
    (hf : f = c.secs.isvprodid ∨ f = c.secs.isvsvn) : fieldNat (committedPage c page) f = 0 := by
  refine fieldNat_eq_zero fun k hoff hlen => ?_
  by_cases hk : k < page.length
  · have hd := of_decide_eq_true (mrenclave_disjoint_isv h hf)
    rw [getD_committedPage c page hk, if_neg (by omega), if_pos]
    rcases hf with rfl | rfl
    · exact .inl ⟨hoff, hlen⟩
    · exact .inr ⟨hoff, hlen⟩
  · exact List.getD_eq_default _ _ (by simpa using hk)

theorem Memory.readBytes_writeBytes_self (m : Memory) (a : Nat) (bs : List Byte) :
    (m.writeBytes a bs).readBytes a bs.length = bs := by
  refine List.ext_getElem (by simp) fun k hk hk' => ?_
  rw [← List.getD_eq_getElem _ 0#8 hk, ← List.getD_eq_getElem _ 0#8 hk', Memory.getD_readBytes _ _ _ _ hk',
    Memory.read_writeBytes_in _ _ _ hk']

/-- After the commit the EPC page holds the committed page. -/
theorem epcData_ecreateCommit {s : State} {pa : Nat} {page : List Byte} (hc : Copied s pa page) :
    (ecreateCommit s ⟨pa, page⟩).epcData (frameOf pa) = committedPage s.cfg page := by
  have hlen : (committedPage s.cfg page).length = 4096 := by rw [length_committedPage, hc.length]
  rw [State.epcData, ecreateCommit_mem, ← hlen, Memory.readBytes_writeBytes_self]

/-! ### The obligations -/

/-- Settles O40: the EPC page holds the committed page, in which both fields are zero because MRENCLAVE, written after them,
lies elsewhere. -/
theorem completionZeroesIsvFields : Obligations.CompletionZeroesIsvFields := by
  intro s pa page hi hc ha
  refine ⟨_, execEnclsEcreate_accepted hc ha, ?_⟩
  rw [epcData_ecreateCommit hc]
  exact ⟨fieldNat_committedPage_isv hi.cfgWf page (.inr rfl), fieldNat_committedPage_isv hi.cfgWf page (.inl rfl)⟩

/-- Settles O38: the entry that the commit writes for the page is `createdEntry`. -/
theorem completionSetsEpcmEntry : Obligations.CompletionSetsEpcmEntry := by
  intro s pa page hc ha
  refine ⟨_, execEnclsEcreate_accepted hc ha, ?_⟩
  rw [ecreateCommit_epcmAt_same]
  exact ⟨rfl, rfl, rfl, rfl, rfl, rfl, rfl, rfl, rfl, rfl⟩

end Sys2Proof.Machine
end

section
/-! PROOFS. What a step keeps (10_state.md sections 6 and 8; 20_memory.md R77): the invariant, fresh identifiers, and the
pages and entry locks that exist already. -/

namespace Sys2Proof.Machine

/-! ### A step is a refusal or the instruction -/

theorem step_cases (s : State) : (∃ r, step s = .refused r) ∨ step s = execEnclsEcreate s := by
  unfold step
  cases s.fetch with
  | error r => exact .inl ⟨r, rfl⟩
  | ok bs =>
    cases hd : decode bs with
    | error why => exact .inl ⟨.undecodable why, by simp [hd]⟩
    | ok p =>
      obtain ⟨i, rest⟩ := p
      cases i
      exact .inr (by simp [hd, exec_enclsEcreate])

/-- A step that leaves a state is the instruction. -/
theorem step_eq_of_endState {s t : State} (h : endState (step s) = some t) : step s = execEnclsEcreate s := by
  rcases step_cases s with ⟨r, hr⟩ | he
  · rw [hr] at h; cases h
  · exact he

/-! ### The invariant -/

theorem State.Inv.setVmcs {s : State} (hi : s.Inv) (v : Vmcs) : (s.setVmcs v).Inv :=
  ⟨hi.memWf, hi.epcmWf, hi.secsxWf, hi.eidRange, hi.validInEpc, hi.cfgWf⟩

theorem State.Inv.forgetEpcData {s : State} (hi : s.Inv) (p : Nat) : (s.forgetEpcData p).Inv :=
  ⟨Memory.wf_writeBytes hi.memWf _ _, hi.epcmWf, hi.secsxWf, hi.eidRange, hi.validInEpc, hi.cfgWf⟩

/-- The commit makes one entry more valid, that of the destination, which is a page of the EPC. -/
theorem State.Inv.commit {s : State} {pa : Nat} {page : List Byte} (hi : s.Inv) (hc : Copied s pa page) :
    (ecreateCommit s ⟨pa, page⟩).Inv where
  memWf := Memory.wf_writeBytes hi.memWf _ _
  epcmWf := tableWf_insert _ _ hi.epcmWf
  secsxWf := tableWf_insert _ _ hi.secsxWf
  eidRange := by
    rw [ecreateCommit_nextEid, ecreateCommit_cfg]
    exact Nat.mod_lt _ (Nat.two_pow_pos _)
  validInEpc p hv := by
    obtain ⟨-, hepc, -, -⟩ := hc.destination
    rw [ecreateCommit_cfg]
    by_cases hp : p = frameOf pa
    · rw [hp]; exact hepc
    · rw [ecreateCommit_epcmAt_ne s pa page p hi hp] at hv
      exact hi.validInEpc p hv
  cfgWf := by
    rw [ecreateCommit_cfg]
    exact hi.cfgWf

theorem State.Inv.of_endState {s t : State} (hi : s.Inv) (h : endState (execEnclsEcreate s) = some t) : t.Inv := by
  rcases endState_cases s t h with
    ⟨rfl, -⟩ | ⟨_, _, -, -, -, -, -, rfl⟩ | ⟨_, _, -, -, -, rfl⟩ | ⟨_, _, hc, -, -, rfl⟩
  · exact hi
  · exact hi.setVmcs _
  · exact hi.forgetEpcData _
  · exact hi.commit hc

theorem State.Inv.of_endState_step {s t : State} (hi : s.Inv) (h : endState (step s) = some t) : t.Inv :=
  hi.of_endState (step_eq_of_endState h ▸ h)

/-! ### Fresh identifiers -/

section
variable {s : State} {pa p : Nat} {page : List Byte}

theorem holdsSecs_ecreateCommit_ne (hi : s.Inv) (hp : p ≠ frameOf pa) :
    (ecreateCommit s ⟨pa, page⟩).holdsSecs p ↔ s.holdsSecs p := by
  simp only [State.holdsSecs, ecreateCommit_epcmAt_ne s pa page p hi hp, ecreateCommit_cfg]

theorem eid_ecreateCommit_same : ((ecreateCommit s ⟨pa, page⟩).secsxAt (frameOf pa)).eid = s.nextEid := by
  rw [ecreateCommit_secsxAt_same]; rfl

/-- After the commit the SECSs that were there before still have an identifier below the old counter. -/
theorem eid_ecreateCommit_lt (hi : s.Inv) (hf : s.EidsFresh) (hp : p ≠ frameOf pa)
    (hh : (ecreateCommit s ⟨pa, page⟩).holdsSecs p) :
    ((ecreateCommit s ⟨pa, page⟩).secsxAt p).eid < s.nextEid := by
  rw [ecreateCommit_secsxAt_ne s pa page p hi hp]
  exact hf.below p ((holdsSecs_ecreateCommit_ne hi hp).1 hh)

/-- The new SECS gets the counter's old value, which is above every identifier in use. -/
theorem State.EidsFresh.commit (hi : s.Inv) (hf : s.EidsFresh) (hwrap : s.nextEid + 1 < 2 ^ s.cfg.eidBits) :
    (ecreateCommit s ⟨pa, page⟩).EidsFresh where
  below p hh := by
    rw [ecreateCommit_nextEid, Nat.mod_eq_of_lt hwrap]
    by_cases hp : p = frameOf pa
    · rw [hp, eid_ecreateCommit_same]; exact Nat.lt_succ_self _
    · exact Nat.lt_succ_of_lt (eid_ecreateCommit_lt hi hf hp hh)
  distinct p q hhp hhq hpq := by
    by_cases hp : p = frameOf pa
    · have hq : q ≠ frameOf pa := fun hq => hpq (hp.trans hq.symm)
      rw [hp, eid_ecreateCommit_same]
      exact (eid_ecreateCommit_lt hi hf hq hhq).ne'
    · by_cases hq : q = frameOf pa
      · rw [hq, eid_ecreateCommit_same]
        exact (eid_ecreateCommit_lt hi hf hp hhp).ne
      · rw [ecreateCommit_secsxAt_ne s pa page p hi hp, ecreateCommit_secsxAt_ne s pa page q hi hq]
        exact hf.distinct p q ((holdsSecs_ecreateCommit_ne hi hp).1 hhp)
          ((holdsSecs_ecreateCommit_ne hi hq).1 hhq) hpq

end

/-! ### Pages that exist -/

/-- Once the copy is made, a page with a valid entry is not the destination (R123). -/
theorem Copied.notDestination_of_valid {s : State} {pa p : Nat} {page : List Byte} (hc : Copied s pa page)
    (hv : (s.epcmAt p).valid = true) : s.notDestination p := by
  obtain ⟨hres, -, -, hnv⟩ := hc.destination
  rintro pa' hres' rfl
  obtain rfl : pa = pa' := Option.some.inj (hres.symm.trans hres')
  simp [hv] at hnv

theorem SameOutsideDestination.epcData {s t : State} {p : Nat} (h : SameOutsideDestination s t)
    (hp : s.notDestination p) : t.epcData p = s.epcData p :=
  Memory.readBytes_congr fun _ hk => h.mem _ (by rwa [frameOf_add hk])

/-- A page with a valid entry keeps its entry, its hidden record and its bytes. -/
theorem endState_keeps_valid_page {s t : State} {p : Nat} (hi : s.Inv) (h : endState (execEnclsEcreate s) = some t)
    (hv : (s.epcmAt p).valid = true) :
    t.epcmAt p = s.epcmAt p ∧ t.secsxAt p = s.secsxAt p ∧ t.epcData p = s.epcData p := by
  have hcopied : ∀ {pa page}, Copied s pa page →
      t.epcmAt p = s.epcmAt p ∧ t.secsxAt p = s.secsxAt p ∧ t.epcData p = s.epcData p := fun hc =>
    have hsame := endState_sameOutsideDestination hi h
    have hp := hc.notDestination_of_valid hv
    ⟨hsame.epcm p hp, hsame.secsx p hp, hsame.epcData hp⟩
  rcases endState_cases s t h with
    ⟨rfl, -⟩ | ⟨_, _, -, -, -, -, -, rfl⟩ | ⟨_, _, hc, -, -, -⟩ | ⟨_, _, hc, -, -, -⟩
  · exact ⟨rfl, rfl, rfl⟩
  · exact ⟨rfl, rfl, rfl⟩
  · exact hcopied hc
  · exact hcopied hc

/-- The entry that the commit writes has a free lock, as the one it replaces had (R121). -/
theorem lockHeld_ecreateCommit {s : State} {pa : Nat} {page : List Byte} (hi : s.Inv) (hc : Copied s pa page) (p : Nat) :
    ((ecreateCommit s ⟨pa, page⟩).epcmAt p).lockHeld = (s.epcmAt p).lockHeld := by
  obtain ⟨-, -, hfree, -⟩ := hc.destination
  by_cases hp : p = frameOf pa
  · rw [hp, ecreateCommit_epcmAt_same, hfree]; rfl
  · rw [ecreateCommit_epcmAt_ne s pa page p hi hp]

/-! ### The reset state -/

theorem State.reset_epcmAt (p : Nat) : State.reset.epcmAt p = EpcmEntry.empty := rfl

theorem State.reset_not_holdsSecs (p : Nat) : ¬ State.reset.holdsSecs p := by
  rintro ⟨hv, -⟩
  rw [State.reset_epcmAt] at hv
  cases hv

/-! ### The obligations -/

/-- Settles O50: a next state is one of the states that the instruction can leave, and each of them meets the invariant. -/
theorem stepKeepsInvariant : Obligations.StepKeepsInvariant := by
  intro s t hi h
  exact hi.of_endState_step (by rw [h]; rfl)

/-- Settles O52: the next state is that of the commit, which gives the new SECS the counter's old value. -/
theorem enclaveIdsStayDistinct : Obligations.EnclaveIdsStayDistinct := by
  intro s t hi hf hwrap h
  have hexec : execEnclsEcreate s = .next t := by
    rw [← step_eq_of_endState (t := t) (by rw [h]; rfl), h]
  obtain ⟨pa, page, -, -, rfl⟩ := execEnclsEcreate_next_iff.1 hexec
  exact hf.commit hi hwrap

/-- Settles O53: only the destination page is written, and only after its entry was found not valid. -/
theorem existingEnclavesAreUndisturbed : Obligations.ExistingEnclavesAreUndisturbed := by
  intro s t p hi h hv
  exact endState_keeps_valid_page hi (step_eq_of_endState h ▸ h) hv

/-- Settles O49: of all the states that the instruction can leave only the committed one has another EPCM. -/
theorem entryLocksAreAsBefore : Obligations.EntryLocksAreAsBefore := by
  intro s t p hi h
  rcases endState_cases s t h with
    ⟨rfl, -⟩ | ⟨_, _, -, -, -, -, -, rfl⟩ | ⟨_, _, -, -, -, rfl⟩ | ⟨_, _, hc, -, -, rfl⟩
  · rfl
  · rfl
  · rfl
  · exact lockHeld_ecreateCommit hi hc p

/-- Settles O51: the state of a fault or VM exit is one of the states that the instruction can leave. -/
theorem faultsKeepInvariant : Obligations.FaultsKeepInvariant := by
  intro s f hi h
  exact hi.of_endState_step (by rw [h]; rfl)

/-- Settles O7: the reset state lists no EPCM entry. -/
theorem resetLeavesEpcmEmptyAndUnlocked : Obligations.ResetLeavesEpcmEmptyAndUnlocked := by
  refine ⟨fun p => ?_, rfl⟩
  rw [State.reset_epcmAt]
  exact ⟨rfl, rfl⟩

/-- Settles O8: the reset tables are empty and its configuration passes the checks; no page holds a SECS. -/
theorem resetMeetsInvariant : Obligations.ResetMeetsInvariant := by
  refine ⟨⟨rfl, rfl, rfl, by decide, fun p hv => ?_, by decide⟩, ⟨fun p hp => ?_, fun p _ hp => ?_⟩⟩
  · rw [State.reset_epcmAt] at hv; cases hv
  · exact absurd hp (State.reset_not_holdsSecs p)
  · exact absurd hp (State.reset_not_holdsSecs p)

end Sys2Proof.Machine
end

section
/-! PROOFS. The decoder and the encoder are inverse to each other (30_encoding.md R91, R96), and what is fetched at `pc`
(20_memory.md R78), in particular after a table word was placed there (log entry 12). -/

namespace Sys2Proof.Machine

/-! ### The decoder -/

/-- The decoder accepts exactly the encoder's bytes, whatever follows them. -/
theorem decode_eq_ok_iff {i : Instr} {bs rest : List Byte} : decode bs = .ok (i, rest) ↔ bs = encode i ++ rest := by
  cases i
  constructor
  · intro h
    unfold decode at h
    split at h
    · next b0 b1 b2 rest' =>
      split at h
      · next hb =>
        obtain ⟨rfl, rfl, rfl⟩ := hb
        cases h
        rfl
      · split at h <;> cases h
    · cases h
  · rintro rfl
    rfl

/-- A number of 24 bits is given by its three bytes. -/
theorem eq_of_three_bytes {v : Nat} (hv : v < 2 ^ 24) (h0 : v % 256 = 0x0F) (h1 : v / 256 % 256 = 0x01)
    (h2 : v / 65536 % 256 = 0xCF) : v = 0xCF010F := by
  omega

theorem tableWordBytes_eq_encode_iff {w : Nat} :
    tableWordBytes 24 w = encode .enclsEcreate ↔ w % 2 ^ 24 = 0xCF010F := by
  constructor
  · intro h
    simp only [tableWordBytes, encode, List.cons.injEq, ← BitVec.toNat_inj, BitVec.toNat_ofNat] at h
    obtain ⟨h0, h1, h2, -⟩ := h
    exact eq_of_three_bytes (Nat.mod_lt _ (by decide)) h0 h1 h2
  · intro h
    rw [tableWordBytes, h]
    rfl

theorem decodeTableWord_eq_some_iff {n w : Nat} {i : Instr} :
    decodeTableWord n w = some i ↔ ∃ rest, tableWordBytes n w = encode i ++ rest := by
  simp only [decodeTableWord, ← decode_eq_ok_iff]
  cases decode (tableWordBytes n w) with
  | error why => simp
  | ok p => simp [Prod.ext_iff]

/-! ### Fetching -/

theorem fetchAddr_eq_ok_iff {s : State} {k pa : Nat} : s.fetchAddr k = .ok pa ↔
    s.translate (s.instrPointer + BitVec.ofNat 64 k) .read = some pa ∧ frameInEpc s.cfg (frameOf pa) = false := by
  unfold State.fetchAddr
  split
  · next hnone => simp [hnone]
  · next a ha =>
    rw [ha, Option.some.injEq]
    split
    · next hf =>
      refine ⟨nofun, fun ⟨he, hpa⟩ => ?_⟩
      rw [← he, hf] at hpa
      cases hpa
    · next hf =>
      rw [Bool.not_eq_true] at hf
      refine ⟨fun h => ?_, fun ⟨he, _⟩ => by rw [he]⟩
      cases h
      exact ⟨rfl, hf⟩

/-- A step runs the instruction whose encoding stands at the three addresses that `pc` has. -/
theorem step_eq_exec {s : State} {i : Instr} {a0 a1 a2 : Nat} (h0 : s.fetchAddr 0 = .ok a0) (h1 : s.fetchAddr 1 = .ok a1)
    (h2 : s.fetchAddr 2 = .ok a2) (hbytes : [s.mem.read a0, s.mem.read a1, s.mem.read a2] = encode i) :
    step s = exec i s := by
  have hfetch : s.fetch = .ok (encode i) := by
    simp only [State.fetch, h0, h1, h2, ← hbytes]
    rfl
  have hdecode : decode (encode i) = .ok (i, []) := decode_eq_ok_iff.2 (List.append_nil _).symm
  simp only [step, hfetch, hdecode]

/-! ### The place of a placed word -/

theorem fetchesFrom_iff {s : State} {pa : Nat} : s.fetchesFrom pa = true ↔
    s.fetchAddr 0 = .ok pa ∧ s.fetchAddr 1 = .ok (pa + 1) ∧ s.fetchAddr 2 = .ok (pa + 2) := by
  unfold State.fetchesFrom
  cases s.fetchAddr 0 <;> cases s.fetchAddr 1 <;> cases s.fetchAddr 2 <;> simp [and_assoc]

/-- Where the bytes at `pc` do not already lie at consecutive addresses, the place is above the EPC. -/
theorem fetchPlace_eq_aboveEpc {s : State} (h : s.fetchesFrom s.fetchPlace = false) : s.fetchPlace = aboveEpc s.cfg := by
  cases h0 : s.fetchAddr 0 with
  | error r => simp only [State.fetchPlace, h0]
  | ok pa =>
    by_cases hf : s.fetchesFrom pa = true
    · simp [State.fetchPlace, h0, hf] at h
    · simp [State.fetchPlace, h0, hf]

theorem le_foldl_rangeEnd (rs : List FrameRange) (m : Nat) :
    m ≤ rs.foldl (fun m r => max m (r.first + r.count)) m ∧
      ∀ r ∈ rs, r.first + r.count ≤ rs.foldl (fun m r => max m (r.first + r.count)) m := by
  induction rs generalizing m with
  | nil => simp
  | cons r rs ih =>
    obtain ⟨hm, hrs⟩ := ih (max m (r.first + r.count))
    refine ⟨(le_max_left ..).trans hm, fun r' hr' => ?_⟩
    rcases List.mem_cons.1 hr' with rfl | hr'
    · exact (le_max_right ..).trans hm
    · exact hrs r' hr'

theorem frameInEpc_aboveEpc (c : Config) {k : Nat} : frameInEpc c (frameOf (aboveEpc c + k)) = false := by
  simp only [frameInEpc, List.any_eq_false, decide_eq_true_eq, not_and, not_lt]
  intro r hr _
  have hle := (le_foldl_rangeEnd c.epc 0).2 r hr
  unfold frameOf aboveEpc
  omega

/-- After `placeCode` the three bytes at `pc` are fetched from consecutive addresses. -/
theorem fetchAddr_placeCode (s : State) (bs : List Byte) {k : Nat} (hk : k < 3) :
    (s.placeCode bs).fetchAddr k = .ok (s.fetchPlace + k) := by
  by_cases hf : s.fetchesFrom s.fetchPlace = true
  · have hpaging : (s.placeCode bs).paging = s.paging := by rw [State.placeCode_paging, if_pos hf]
    have hsame : (s.placeCode bs).fetchAddr k = s.fetchAddr k := by
      simp only [State.fetchAddr, State.translate, hpaging]
      rfl
    obtain ⟨h0, h1, h2⟩ := fetchesFrom_iff.1 hf
    rw [hsame]
    match k, hk with
    | 0, _ => exact h0
    | 1, _ => exact h1
    | 2, _ => exact h2
  · rw [Bool.not_eq_true] at hf
    have hoff : (s.instrPointer + BitVec.ofNat 64 k - s.instrPointer).toNat = k := by
      rw [add_sub_cancel_left, BitVec.toNat_ofNat]
      omega
    refine fetchAddr_eq_ok_iff.2 ⟨?_, ?_⟩
    · show (s.placeCode bs).translate (s.instrPointer + BitVec.ofNat 64 k) .read = _
      rw [State.translate, State.placeCode_paging, if_neg (by simp [hf]), List.find?_cons_of_pos]
      · simp only [hoff]
      · simp only [Mapping.answers, hoff, hk, decide_true, Bool.and_self]
    · rw [State.placeCode_cfg, fetchPlace_eq_aboveEpc hf]
      exact frameInEpc_aboveEpc s.cfg

/-- After `placeCode` the bytes placed are what is read there. -/
theorem read_placeCode (s : State) (bs : List Byte) {k : Nat} (hk : k < bs.length) :
    (s.placeCode bs).mem.read (s.fetchPlace + k) = bs.getD k 0#8 := by
  rw [State.placeCode_mem, Memory.read_writeBytes_in _ _ _ hk]

/-! ### The obligations -/

/-- Settles O3: the decoder accepts nothing but the encoder's bytes. -/
theorem decoderAcceptsOnlyTheEncoding : Obligations.DecoderAcceptsOnlyTheEncoding :=
  fun _ _ _ h => decode_eq_ok_iff.1 h

/-- Settles O2: the decoder accepts the encoder's bytes. -/
theorem decodeOfEncodeIsIdentity : Obligations.DecodeOfEncodeIsIdentity :=
  fun _ _ _ => decode_eq_ok_iff.2 rfl

/-- Settles O4: the three bytes of a table word are the encoder's exactly for that word. -/
theorem onlyOneTableWordIsEcreate : Obligations.OnlyOneTableWordIsEcreate := by
  intro w
  rw [← tableWordBytes_eq_encode_iff, decodeTableWord_eq_some_iff]
  constructor
  · rintro ⟨rest, h⟩
    have hlen : rest.length = 0 := by
      have := congrArg List.length h
      simpa [tableWordBytes, encode] using this
    rwa [List.length_eq_zero_iff.1 hlen, List.append_nil] at h
  · exact fun h => ⟨[], by rw [h, List.append_nil]⟩

/-- Settles O1: the first two forms are the encoder's bytes; the third begins with another byte. -/
theorem tableWordDecodesToEcreate : Obligations.TableWordDecodesToEcreate :=
  ⟨(onlyOneTableWordIsEcreate _).2 rfl, decode_eq_ok_iff.2 rfl, rfl⟩

/-- Settles O5: the three conditions on each byte are what `fetchAddr` asks. -/
theorem stepRunsDecodedInstruction : Obligations.StepRunsDecodedInstruction := by
  intro s i a0 a1 a2 h0 h1 h2 e0 e1 e2 _ hbytes
  rw [← BitVec.add_zero s.instrPointer] at h0
  exact step_eq_exec (fetchAddr_eq_ok_iff.2 ⟨h0, e0⟩) (fetchAddr_eq_ok_iff.2 ⟨h1, e1⟩)
    (fetchAddr_eq_ok_iff.2 ⟨h2, e2⟩) hbytes

/-- Settles O6: the placed bytes are fetched from where they were placed, and they are the encoder's. -/
theorem placedWordIsRunByNextStep : Obligations.PlacedWordIsRunByNextStep := by
  intro s
  have hbytes : tableWordBytes 24 0xCF010F = encode .enclsEcreate := tableWordBytes_eq_encode_iff.2 rfl
  rw [State.withFetchWord, hbytes]
  refine step_eq_exec (fetchAddr_placeCode s _ (k := 0) (by decide)) (fetchAddr_placeCode s _ (k := 1) (by decide))
    (fetchAddr_placeCode s _ (k := 2) (by decide)) ?_
  rw [read_placeCode s _ (by decide), read_placeCode s _ (by decide), read_placeCode s _ (by decide)]
  rfl

end Sys2Proof.Machine
end

section
/-! PROOFS. Addresses (20_memory.md R60 to R62, R70), the byte order of fields (R64) and the bytes that the reserved fields of
the SECS cover (40_ecreate.md R146). -/

namespace Sys2Proof.Machine

/-! ### Effective and linear addresses -/

section
variable {s : State}

theorem effective_of_mode64 (h : s.mode64 = true) (v : Word64) : s.effective v = v := by
  rw [State.effective, if_pos h]

theorem lin_of_mode64 (h : s.mode64 = true) (e : Word64) : s.lin e = e := by
  rw [State.lin, if_pos h]

theorem effective_of_not_mode64 (h : s.mode64 = false) (v : Word64) : s.effective v = (v.setWidth 32).setWidth 64 := by
  rw [State.effective, if_neg (by simp [h])]

theorem lin_of_not_mode64 (h : s.mode64 = false) (e : Word64) :
    s.lin e = (s.ds.base + e.setWidth 32).setWidth 64 := by
  rw [State.lin, if_neg (by simp [h])]

theorem toNat_effective_of_not_mode64 (h : s.mode64 = false) (v : Word64) :
    (s.effective v).toNat = v.toNat % 2 ^ 32 := by
  rw [effective_of_not_mode64 h, BitVec.toNat_setWidth, BitVec.toNat_setWidth]
  omega

theorem toNat_lin_of_not_mode64 (h : s.mode64 = false) (e : Word64) :
    (s.lin e).toNat = (s.ds.base.toNat + e.toNat) % 2 ^ 32 := by
  rw [lin_of_not_mode64 h, BitVec.toNat_setWidth, BitVec.toNat_add, BitVec.toNat_setWidth]
  omega

/-- Outside 64-bit mode an effective address is given by the low half. -/
theorem effective_congr_of_not_mode64 (h : s.mode64 = false) {v w : Word64} (hvw : v.toNat % 2 ^ 32 = w.toNat % 2 ^ 32) :
    s.effective v = s.effective w := by
  rw [← BitVec.toNat_inj, toNat_effective_of_not_mode64 h, toNat_effective_of_not_mode64 h, hvw]

end

/-! ### The DS check -/

theorem dsOk_of_mode64 {s : State} (h : s.mode64 = true) (e : Word64) (n : Nat) :
    s.dsOk e n = (canonical s.cfg.laBits (s.lin e) && (s.dsListed e n).getD true) := by
  rw [State.dsOk, if_pos h]

theorem dsOk_of_not_mode64 {s : State} (h : s.mode64 = false) (e : Word64) (n : Nat) :
    s.dsOk e n = (s.dsListed e n).getD (s.ds.inLimit e n) := by
  rw [State.dsOk, if_neg (by simp [h])]

/-- The limit is kept exactly when every byte of an operand keeps it. -/
theorem inLimit_iff_forall {d : DataSegment} {e : Word64} {n : Nat} (hn : 0 < n) :
    d.inLimit e n = true ↔ ∀ k < n, d.first.toNat ≤ e.toNat + k ∧ e.toNat + k ≤ d.last.toNat := by
  rw [DataSegment.inLimit, decide_eq_true_iff]
  constructor
  · rintro ⟨hfirst, hlast⟩ k hk
    omega
  · intro h
    have hfirst := (h 0 hn).1
    have hlast := (h (n - 1) (by omega)).2
    omega

theorem SegmentLine.covers_iff {l : SegmentLine} {m : Bool} {e : Word64} {n : Nat} : l.covers m e n = true ↔
    l.mode64 = m ∧ l.len = n ∧ l.first.toNat ≤ e.toNat ∧ e.toNat ≤ l.last.toNat := by
  simp only [SegmentLine.covers, Bool.and_eq_true, beq_iff_eq, decide_eq_true_eq, and_assoc]

theorem dsListed_of_covers {s : State} {e : Word64} {n : Nat} {l : SegmentLine} {ls : List SegmentLine}
    (hl : s.ds.listed = l :: ls) (hc : l.covers s.mode64 e n = true) : s.dsListed e n = some l.ok := by
  simp [State.dsListed, hl, hc]

/-! ### Canonical addresses -/

/-- Of a number below `2 ^ n` all `n` bits are equal exactly when it is 0 or `2 ^ n - 1`. -/
theorem eq_zero_or_allOnes_iff {x n : Nat} (hx : x < 2 ^ (n + 1)) :
    (x = 0 ∨ x = 2 ^ (n + 1) - 1) ↔ ∀ i ≤ n, x.testBit i = x.testBit n := by
  constructor
  · rintro (rfl | rfl) i hi
    · simp
    · simp [Nat.testBit_two_pow_sub_one, Nat.lt_succ_of_le hi]
  · intro h
    have hhigh : ∀ i, ¬ i ≤ n → x.testBit i = false := fun i hi =>
      Nat.testBit_lt_two_pow (hx.trans_le (Nat.pow_le_pow_right (by decide) (by omega)))
    cases hn : x.testBit n with
    | false =>
      refine .inl (Nat.eq_of_testBit_eq fun i => ?_)
      by_cases hi : i ≤ n
      · simp [h i hi, hn]
      · simp [hhigh i hi]
    | true =>
      refine .inr (Nat.eq_of_testBit_eq fun i => ?_)
      by_cases hi : i ≤ n
      · simp [h i hi, hn, Nat.testBit_two_pow_sub_one, Nat.lt_succ_of_le hi]
      · simp [hhigh i hi, Nat.testBit_two_pow_sub_one, show ¬ i < n + 1 by omega]

/-- The bits from LA_BITS - 1 on are a number of `64 - (LA_BITS - 1)` bits, whose highest is bit 63. -/
theorem canonical_iff_forall {laBits : Nat} {a : Word64} (h1 : 1 ≤ laBits) (h64 : laBits ≤ 64) :
    canonical laBits a = true ↔ ∀ i, laBits - 1 ≤ i → i < 64 → a.getLsbD i = a.getLsbD 63 := by
  obtain ⟨m, n, rfl, hmn⟩ : ∃ m n, laBits = m + 1 ∧ m + n = 63 := ⟨laBits - 1, 64 - laBits, by omega, by omega⟩
  have hlt : a.toNat / 2 ^ m < 2 ^ (n + 1) := by
    rw [Nat.div_lt_iff_lt_mul (Nat.two_pow_pos m), ← pow_add, show n + 1 + m = 64 by omega]
    exact a.isLt
  have hbit : ∀ i, (a.toNat / 2 ^ m).testBit i = a.getLsbD (m + i) := fun i => by
    rw [Nat.testBit_div_two_pow, Nat.add_comm i m]
    rfl
  simp only [canonical, Bool.or_eq_true, beq_iff_eq, Nat.add_sub_cancel, show 64 - m = n + 1 by omega,
    eq_zero_or_allOnes_iff hlt, hbit, hmn]
  constructor
  · intro h i hi hi'
    have := h (i - m) (by omega)
    rwa [show m + (i - m) = i by omega] at this
  · intro h i hi
    exact h (m + i) (by omega) (by omega)

/-! ### Fields, byte by byte -/

/-- Byte `i` of the number that bytes spell. -/
theorem leNat_byte (bs : List Byte) (i : Nat) : leNat bs / 2 ^ (8 * i) % 256 = (bs.getD i 0#8).toNat := by
  induction bs generalizing i with
  | nil => simp [leNat]
  | cons b bs ih =>
    have hb := b.isLt
    cases i with
    | zero =>
      simp only [leNat, List.getD_cons_zero]
      omega
    | succ i =>
      rw [List.getD_cons_succ, ← ih i, leNat, show 8 * (i + 1) = 8 + 8 * i by ring, pow_add, ← Nat.div_div_eq_div_mul]
      congr 2
      omega

theorem getD_fieldBytes (bs : List Byte) (f : FieldPos) {i : Nat} (hi : i < f.len) :
    (fieldBytes bs f).getD i 0#8 = bs.getD (f.off + i) 0#8 := by
  simp [fieldBytes, List.getD_eq_getElem?_getD, hi]

/-- Every byte of a field is zero. -/
theorem fieldBytes_all_zero_iff {bs : List Byte} {f : FieldPos} : (∀ b ∈ fieldBytes bs f, b = 0#8) ↔
    ∀ k, f.off ≤ k → k < f.off + f.len → bs.getD k 0#8 = 0#8 := by
  constructor
  · intro h k hoff hlen
    obtain ⟨i, rfl⟩ := Nat.exists_eq_add_of_le hoff
    rw [← getD_fieldBytes bs f (by omega)]
    by_cases hi : i < (fieldBytes bs f).length
    · rw [List.getD_eq_getElem _ _ hi]
      exact h _ (List.getElem_mem hi)
    · exact List.getD_eq_default _ _ (by omega)
  · intro h b hb
    obtain ⟨i, hi, rfl⟩ := List.mem_iff_getElem.1 hb
    have hlen : i < f.len := hi.trans_le (List.length_take_le ..)
    rw [← List.getD_eq_getElem _ 0#8 hi, getD_fieldBytes bs f hlen]
    exact h _ (by omega) (by omega)

/-- The answer for a page that stands first in the list. -/
theorem secsReservedZero_listed {c : Config} {page : List Byte} {answer : Bool} {rest : List (List Byte × Bool)}
    (h : c.secsReservedListed = (blankOverwritten c page, answer) :: rest) : secsReservedZero c page = answer := by
  simp [secsReservedZero, h]

/-! ### The obligations -/

/-- Settles O10: the limit is that of every byte; what is listed decides before it. -/
theorem segmentCheckCoversEveryByte : Obligations.SegmentCheckCoversEveryByte := by
  intro s e n hn
  refine ⟨fun hm hd => ?_, fun hm hl => ?_, fun hm hl => ?_, fun l ls hl hmode hlen hfirst hlast => ?_⟩
  · rw [dsOk_of_mode64 hm, Bool.and_eq_true] at hd
    exact hd.1
  · rw [State.dsOk_unlisted hl, if_pos hm]
  · rw [State.dsOk_unlisted hl, if_neg (by simp [hm])]
    exact inLimit_iff_forall hn
  · have hlisted := dsListed_of_covers hl (SegmentLine.covers_iff.2 ⟨hmode, hlen, hfirst, hlast⟩)
    cases hm : s.mode64 with
    | true => rw [dsOk_of_mode64 hm, hlisted]; simp [Bool.and_comm]
    | false => rw [dsOk_of_not_mode64 hm, hlisted]; simp

/-- Settles O11: the bits from LA_BITS - 1 on are one number, and it is 0 or all ones. -/
theorem canonicalMeansHighBitsEqual : Obligations.CanonicalMeansHighBitsEqual :=
  fun _ _ h1 h64 => canonical_iff_forall h1 h64

/-- Settles O12: byte `i` of the field's bytes is byte `i` of the number they spell. -/
theorem fieldsAreLittleEndian : Obligations.FieldsAreLittleEndian := by
  intro bs f i hi _
  rw [fieldNat, leNat_byte, getD_fieldBytes bs f hi]

/-- Settles O35: a reserved field is zero byte by byte, and the default fields are four ranges of bytes. -/
theorem reservedFieldsAreZeroBytes : Obligations.ReservedFieldsAreZeroBytes := by
  intro c page _
  refine ⟨fun hl => ?_, fun hl hdef => ?_, fun answer rest hl => secsReservedZero_listed hl⟩
  · simp only [secsReservedZero_unlisted hl, fieldBytes_all_zero_iff]
  · simp only [secsReservedZero_unlisted hl, fieldBytes_all_zero_iff, hdef, Config.defaultSecsReserved,
      List.forall_mem_cons, List.not_mem_nil, false_imp_iff, implies_true, and_true, or_imp, and_imp, forall_and]

/-- Settles O9: each address is the value itself in 64-bit mode, and a number of 32 bits outside it. -/
theorem effectiveAndLinearAddresses : Obligations.EffectiveAndLinearAddresses :=
  fun _ v => ⟨fun h => ⟨effective_of_mode64 h v, lin_of_mode64 h v⟩,
    fun h => ⟨toNat_effective_of_not_mode64 h v, toNat_lin_of_not_mode64 h v⟩⟩

end Sys2Proof.Machine
end

section
/-! PROOFS. How ENCLS[ECREATE] ends before the copy (40_ecreate.md R111 to R126): each cause by name, and what the records
of such endings are (60_exceptions.md R181 to R190). -/

namespace Sys2Proof.Machine

/-! ### The entry in use -/

section
variable {s : State} {pa : Nat}

theorem entryInUseEnding_of_guest (h : s.vmxNonRoot = true ∧ s.epcVirtExt = true) :
    entryInUseEnding s pa = .vmExit pa (s.lin s.eaRcx) := by
  simp [entryInUseEnding, h]

theorem entryInUseEnding_of_not_guest (h : ¬ (s.vmxNonRoot = true ∧ s.epcVirtExt = true)) :
    entryInUseEnding s pa = .gp := by
  rw [entryInUseEnding, if_neg (by rwa [Bool.and_eq_true])]

theorem entryInUseEnding_cases (s : State) (pa : Nat) :
    (s.vmxNonRoot = true ∧ s.epcVirtExt = true ∧ entryInUseEnding s pa = .vmExit pa (s.lin s.eaRcx)) ∨
      entryInUseEnding s pa = .gp := by
  by_cases h : s.vmxNonRoot = true ∧ s.epcVirtExt = true
  · exact .inl ⟨h.1, h.2, entryInUseEnding_of_guest h⟩
  · exact .inr (entryInUseEnding_of_not_guest h)

end

/-! ### What the kind of an early ending says -/

/-- The linear addresses that a page fault can name (60_exceptions.md R182). -/
def State.pfAddress (s : State) (la : Word64) : Prop :=
  la = s.lin s.eaRcx ∨ la = s.lin s.eaRbx ∨
    ∃ pa pageinfo, ReachesSecinfo s pa pageinfo ∧
      (la = s.lin (tmpSecinfo s pageinfo) ∨ la = s.lin (tmpSrcpge s pageinfo))

/-- `r` is the refusal of a source structure with its first or its last byte in the EPC, met at its read (40_ecreate.md R126). -/
def State.refusesSource (s : State) (r : Refusal) : Prop :=
  ∃ what e pa a n, r = .sourceInsideEpc what ∧ s.translate (s.lin e) .read = some a ∧
    (frameInEpc s.cfg (frameOf a) = true ∨ frameInEpc s.cfg (frameOf (a + n - 1)) = true) ∧
    ((what = .pageinfo ∧ e = s.eaRbx ∧ n = 32 ∧ ReachesPageinfo s pa) ∨
      (what = .secinfo ∧ n = 64 ∧ ∃ pageinfo, ReachesSecinfo s pa pageinfo ∧ e = tmpSecinfo s pageinfo) ∨
      (what = .sourcePage ∧ n = 4096 ∧ ∃ pageinfo, ReachesCopy s pa pageinfo ∧ e = tmpSrcpge s pageinfo))

section
variable {s : State} {d : Ending} (h : EarlyEnding s d)
include h

theorem EarlyEnding.pfAddress {site : PfSite} {la : Word64} (hd : d = .pf site la) : s.pfAddress la := by
  cases h with
  | destPaging => cases hd; exact .inl rfl
  | destOutside => cases hd; exact .inl rfl
  | entryValid => cases hd; exact .inl rfl
  | pageinfoPaging => cases hd; exact .inr (.inl rfl)
  | secinfoPaging pa pageinfo h0 => cases hd; exact .inr (.inr ⟨pa, pageinfo, h0, .inl rfl⟩)
  | sourcePaging pa pageinfo h0 => cases hd; exact .inr (.inr ⟨pa, pageinfo, h0.toReachesSecinfo, .inr rfl⟩)
  | entryInUse pa =>
    rcases entryInUseEnding_cases s pa with ⟨-, -, he⟩ | he <;> rw [he] at hd <;> cases hd
  | _ => cases hd

theorem EarlyEnding.guest {p : Nat} {la : Word64} (hd : d = .vmExit p la) :
    s.vmxNonRoot = true ∧ s.epcVirtExt = true := by
  cases h with
  | entryInUse pa =>
    rcases entryInUseEnding_cases s pa with ⟨hroot, hvirt, -⟩ | he
    · exact ⟨hroot, hvirt⟩
    · rw [he] at hd; cases hd
  | _ => cases hd

theorem EarlyEnding.refusesSource {r : Refusal} (hd : d = .refuse r) : s.refusesSource r := by
  cases h with
  | pageinfoInside pa h0 a ha hin =>
    cases hd
    exact ⟨_, _, pa, a, 32, rfl, ha, hin, .inl ⟨rfl, rfl, rfl, h0⟩⟩
  | secinfoInside pa pageinfo h0 a ha hin =>
    cases hd
    exact ⟨_, _, pa, a, 64, rfl, ha, hin, .inr (.inl ⟨rfl, rfl, pageinfo, h0, rfl⟩)⟩
  | sourceInside pa pageinfo h0 a ha hin =>
    cases hd
    exact ⟨_, _, pa, a, 4096, rfl, ha, hin, .inr (.inr ⟨rfl, rfl, pageinfo, h0, rfl⟩)⟩
  | entryInUse pa =>
    rcases entryInUseEnding_cases s pa with ⟨-, -, he⟩ | he <;> rw [he] at hd <;> cases hd
  | _ => cases hd

end

/-! ### The tests on SECINFO -/

/-- A mask whose low six bits are clear tests a number only above them. -/
theorem and_eq_zero_iff_div_64 {x r : Nat} (hr : r % 64 = 0) : x &&& r = 0 ↔ x / 64 &&& r / 64 = 0 := by
  have hlow : (x &&& r) % 2 ^ 6 = 0 := by rw [Nat.and_mod_two_pow, show r % 2 ^ 6 = 0 from hr, Nat.and_zero]
  have hhigh : (x &&& r) / 2 ^ 6 = x / 64 &&& r / 64 := Nat.and_div_two_pow
  rw [← hhigh]
  omega

/-- Under the default layout bits 5:0 of SECINFO are not reserved (10_state.md R34). -/
theorem defaultSecinfo_reserved_mod_64 : Config.defaultSecinfo.reserved.toNat % 64 = 0 := by
  unfold Config.defaultSecinfo
  rw [BitVec.toNat_append, show 64 = 2 ^ 6 by decide, Nat.or_mod_two_pow, Nat.shiftLeft_eq]
  generalize (BitVec.allOnes 496).toNat = x
  rw [show x * 2 ^ 16 % 2 ^ 6 = 0 by omega]
  rfl

/-- The default page type is the second byte of SECINFO. -/
theorem secinfoPt_default {c : Config} (h : c.secinfo = Config.defaultSecinfo) (b : Byte) (rest : List Byte) :
    secinfoPt c (b :: rest) = leNat (rest.take 7) % 2 ^ 8 := by
  have hb := b.isLt
  simp only [secinfoPt, h, Config.defaultSecinfo, fieldNat, fieldBytes, List.drop_zero, List.take_succ_cons, leNat]
  omega

/-! ### The obligations -/

/-- Settles O13: outside the premises the only answer is a refusal. -/
theorem refusedOutsidePremises : Obligations.RefusedOutsidePremises := by
  intro s hp
  rcases execEnclsEcreate_cases s with ⟨-, h⟩ | ⟨_, hp', -⟩ | ⟨_, _, hc, -⟩ | ⟨_, _, hc, -⟩
  · exact h
  · exact absurd hp' hp
  · exact absurd hc.premises hp
  · exact absurd hc.premises hp

/-- Settles O14: the three refusals are among the named early endings. -/
theorem sourceInsideEpcIsRefused : Obligations.SourceInsideEpcIsRefused := by
  intro s pa a
  refine ⟨fun h0 ha hin => ?_, fun pageinfo h0 ha hin => ?_, fun pageinfo h0 ha hin => ?_⟩
  · exact execEnclsEcreate_early s _ h0.toPremises (.pageinfoInside pa h0 a ha hin)
  · exact execEnclsEcreate_early s _ h0.toPremises (.secinfoInside pa pageinfo h0 a ha hin)
  · exact execEnclsEcreate_early s _ h0.toPremises (.sourceInside pa pageinfo h0 a ha hin)

/-- Settles O15: within the premises only an early ending can refuse. -/
theorem noOtherRefusalWithinPremises : Obligations.NoOtherRefusalWithinPremises := by
  intro s r hp hr
  rw [exec_enclsEcreate] at hr
  rcases execEnclsEcreate_cases s with ⟨hn, -⟩ | ⟨d, -, he, h⟩ | ⟨_, _, -, -, h⟩ | ⟨_, _, -, -, h⟩
  · exact absurd hp hn
  · rw [hr] at h
    cases d with
    | refuse r' => cases h; exact he.refusesSource rfl
    | _ => cases h
  · rw [hr] at h; cases h
  · rw [hr] at h; cases h

/-- Settles O16: the PAGEINFO address is the first thing checked. -/
theorem pageinfoAddressFaults : Obligations.PageinfoAddressFaults := by
  intro s hp h
  exact execEnclsEcreate_early s _ hp (.pageinfoAddress fun ⟨hok, hal⟩ => by simp [hok, hal] at h)

/-- Settles O17: a bad PAGEINFO address, which is checked before, ends in the same fault. -/
theorem destinationAddressFaults : Obligations.DestinationAddressFaults := by
  intro s hp h
  by_cases hb : s.dsOk s.eaRbx 32 = true ∧ (s.lin s.eaRbx).toNat % 32 = 0
  · exact execEnclsEcreate_early s _ hp (.destAddress hb fun ⟨hok, hal⟩ => by simp [hok, hal] at h)
  · exact execEnclsEcreate_early s _ hp (.pageinfoAddress hb)

/-- Settles O18: both causes are named early endings. -/
theorem destinationOutsideEpcPageFaults : Obligations.DestinationOutsideEpcPageFaults :=
  fun s h0 => ⟨fun h => execEnclsEcreate_early s _ h0.toPremises (.destPaging h0 h),
    fun pa h hout => execEnclsEcreate_early s _ h0.toPremises (.destOutside h0 pa h hout)⟩

/-- Settles O19: the three reads that paging does not resolve are named early endings. -/
theorem unreadableSourcePageFaults : Obligations.UnreadableSourcePageFaults := by
  intro s pa
  refine ⟨fun h0 h => ?_, fun pageinfo h0 h => ?_, fun pageinfo h0 h => ?_⟩
  · exact execEnclsEcreate_early s _ h0.toPremises (.pageinfoPaging pa h0 h)
  · exact execEnclsEcreate_early s _ h0.toPremises (.secinfoPaging pa pageinfo h0 h)
  · exact execEnclsEcreate_early s _ h0.toPremises (.sourcePaging pa pageinfo h0 h)

/-- Settles O20: each of the four conditions is one of the check of R116. -/
theorem sourceAddressesFault : Obligations.SourceAddressesFault := by
  intro s pa pageinfo h0 h
  refine execEnclsEcreate_early s _ h0.toPremises (.sourceAddress pa pageinfo h0 ?_)
  rw [← Bool.not_eq_true, sourceAddrsOk_iff]
  rintro ⟨⟨hsrc, hsrc'⟩, hsec, hsec'⟩
  simp [hsrc, hsrc', hsec, hsec'] at h

/-- Settles O21: where the addresses checked before are bad, the fault is the same. -/
theorem unusedPageinfoFieldsFault : Obligations.UnusedPageinfoFieldsFault := by
  intro s pa pageinfo h0 h
  have hbad : unusedFieldsZero s.cfg pageinfo = false := by
    rw [← Bool.not_eq_true, unusedFieldsZero_iff]
    rintro ⟨hlin, hsecs⟩
    simp [hlin, hsecs] at h
  cases ha : sourceAddrsOk s pageinfo with
  | true => exact execEnclsEcreate_early s _ h0.toPremises (.unusedFields pa pageinfo h0 ha hbad)
  | false => exact execEnclsEcreate_early s _ h0.toPremises (.sourceAddress pa pageinfo h0 ha)

/-- Settles O22: both conditions are those of the check of R119. -/
theorem secinfoContentFaults : Obligations.SecinfoContentFaults := by
  intro s pa pageinfo secinfo h0 h
  refine execEnclsEcreate_early s _ h0.toPremises (.secinfoContent pa pageinfo secinfo h0 ?_)
  rw [← Bool.not_eq_true, secinfoOk_iff]
  rintro ⟨hres, hpt⟩
  simp [hres, hpt] at h

/-- Settles O23: the reserved bits begin at bit 6, and the page type is the second byte. -/
theorem secinfoPermissionBitsNotTested : Obligations.SecinfoPermissionBitsNotTested := by
  intro c b b' rest hdef hbits _
  have hreserved : c.secinfo.reserved.toNat % 64 = 0 := hdef ▸ defaultSecinfo_reserved_mod_64
  have hdiv : leNat (b :: rest) / 64 = leNat (b' :: rest) / 64 := by
    simp only [leNat]
    omega
  rw [Bool.eq_iff_iff, secinfoOk_iff, secinfoOk_iff, and_eq_zero_iff_div_64 hreserved, and_eq_zero_iff_div_64 hreserved,
    hdiv, secinfoPt_default hdef, secinfoPt_default hdef]

/-- Settles O24: the ending of an entry in use is named, and which of the two it is depends on the guest. -/
theorem entryInUseExitsOrFaults : Obligations.EntryInUseExitsOrFaults := by
  intro s pa pageinfo h0 hlock
  have h := execEnclsEcreate_early s _ h0.toPremises (.entryInUse pa pageinfo h0 hlock)
  refine ⟨fun hg => ?_, fun hg => ?_⟩
  · rw [entryInUseEnding_of_guest hg] at h
    exact h
  · rw [entryInUseEnding_of_not_guest hg] at h
    exact h

/-- Settles O25: the valid entry is a named early ending. -/
theorem validEntryPageFaults : Obligations.ValidEntryPageFaults :=
  fun s pa pageinfo h0 hfree hvalid =>
    execEnclsEcreate_early s _ h0.toPremises (.entryValid pa pageinfo h0 hfree hvalid)

/-- Settles O47: the other states that the instruction can leave come after the copy. -/
theorem endingsBeforeTheCopyChangeNothing : Obligations.EndingsBeforeTheCopyChangeNothing := by
  intro s t h hnc
  rcases endState_cases s t h with
    ⟨rfl, f, hf, -⟩ | ⟨_, _, -, -, -, -, hf, rfl⟩ | ⟨pa, page, hc, -⟩ | ⟨pa, page, hc, -⟩
  · exact .inl ⟨rfl, f, hf⟩
  · exact .inr ⟨_, hf, rfl⟩
  · exact absurd ⟨pa, page, hc⟩ hnc
  · exact absurd ⟨pa, page, hc⟩ hnc

/-- Settles O48: by the kind of the early ending, and the one fault after the copy. -/
theorem faultRecordsAreAsSpecified : Obligations.FaultRecordsAreAsSpecified := by
  intro s f hf
  rw [exec_enclsEcreate] at hf
  rcases execEnclsEcreate_cases s with ⟨-, r, h⟩ | ⟨d, -, he, h⟩ | ⟨_, _, -, -, h⟩ | ⟨_, _, -, -, h⟩
  · rw [hf] at h; cases h
  · rw [hf] at h
    cases d with
    | gp => cases h; exact ⟨rfl, rfl, rfl⟩
    | pf site la => cases h; exact ⟨rfl, rfl, rfl, he.pfAddress rfl⟩
    | vmExit p la => cases h; exact ⟨rfl, rfl, he.guest rfl⟩
    | refuse r => cases h
  · rw [hf] at h; cases h; exact ⟨rfl, rfl, rfl⟩
  · rw [hf] at h; cases h

end Sys2Proof.Machine
end

section
/-! PROOFS. What ENCLS[ECREATE] does once the copy is made: the faults of the checks on the SECS (40_ecreate.md R129 to R147),
the completion (R148 to R163) and the measurement (R153, R155). -/

namespace Sys2Proof.Machine

/-! ### Faults after the copy -/

section
variable {s : State} {pa : Nat} {page : List Byte}

/-- A SECS that is not accepted ends in the fault after the copy. -/
theorem execEnclsEcreate_rejected (hc : Copied s pa page) (h : ¬ Accepts s.cfg page (parseSecs s.cfg page)) :
    execEnclsEcreate s = .fault (.gp 0 s.instrPointer (s.forgetEpcData (frameOf pa))) := by
  rw [execEnclsEcreate_copied hc, if_pos]
  · rfl
  · rwa [← Bool.not_eq_false, secsRejected_false_iff]

theorem lateFault_of_not_accepts (hc : Copied s pa page) (h : ¬ Accepts s.cfg page (parseSecs s.cfg page)) :
    LateFault s pa :=
  ⟨_, execEnclsEcreate_rejected hc h, rfl, fun _ hm ha => Memory.read_writePage_other hm (by simp) ha⟩

end

/-- The low two bits of a word are both set exactly when it is 3 modulo 4. -/
theorem toNat_mod_four_eq_three_iff (x : Word64) :
    x.toNat % 4 = 3 ↔ x.getLsbD 0 = true ∧ x.getLsbD 1 = true := by
  simp only [BitVec.getLsbD, Nat.testBit_succ, Nat.testBit_zero, decide_eq_true_eq]
  omega

/-- A word under a mask has no bit outside it. -/
theorem getLsbD_mask_of_and_not_eq_zero {w : Nat} {x mask : BitVec w} (h : x &&& ~~~mask = 0#w) {i : Nat}
    (hi : x.getLsbD i = true) : mask.getLsbD i = true := by
  have hbit := congrArg (·.getLsbD i) h
  simpa [hi, BitVec.lt_of_getLsbD hi] using hbit

theorem fitsEnclave_of_mode64 {c : Config} {v : Secs} {a : Word64} (h : secsMode64 c v = true) :
    FitsEnclave c v a ↔ canonical c.laBits a = true := by
  rw [FitsEnclave, if_pos h]

theorem fitsEnclave_of_not_mode64 {c : Config} {v : Secs} {a : Word64} (h : secsMode64 c v = false) :
    FitsEnclave c v a ↔ a.toNat < 2 ^ 32 := by
  rw [FitsEnclave, if_neg (by simp [h])]

/-! ### The measured block -/

theorem length_measurementBlock (c : Config) (v : Secs) : (measurementBlock c v).length = 64 := by
  simp [measurementBlock, length_leBytes]

/-- The block of R153 as a number: its parts lie one above the other. -/
theorem leNat_measurementBlock (c : Config) (v : Secs) :
    leNat (measurementBlock c v) = 0x0045544145524345 + v.ssaframesize.toNat * 2 ^ 64 + v.size.toNat * 2 ^ 96 +
      (if c.cetIbt then v.cetLegBitmapOffset.toNat else 0) * 2 ^ 160 := by
  have hoff : (if c.cetIbt then v.cetLegBitmapOffset.toNat else 0) < 256 ^ 8 := by
    split
    · exact v.cetLegBitmapOffset.isLt
    · decide
  have hzeros : leNat (List.replicate 36 0#8) = 0 := leNat_eq_zero fun _ hb => List.eq_of_mem_replicate hb
  simp only [measurementBlock, leNat_append, leNat_leBytes, length_leBytes, List.length_append, hzeros,
    Nat.mod_eq_of_lt hoff, Nat.mod_eq_of_lt (show v.ssaframesize.toNat < 256 ^ 4 from v.ssaframesize.isLt),
    Nat.mod_eq_of_lt (show v.size.toNat < 256 ^ 8 from v.size.isLt)]
  ring

/-- The block reads three fields of the SECS, the bitmap offset only with CET_IBT. -/
theorem measurementBlock_congr {c c' : Config} {v v' : Secs} (hibt : c.cetIbt = c'.cetIbt)
    (hframe : v.ssaframesize = v'.ssaframesize) (hsize : v.size = v'.size)
    (hoff : c.cetIbt = true → v.cetLegBitmapOffset = v'.cetLegBitmapOffset) :
    measurementBlock c v = measurementBlock c' v' := by
  have hpart : (if c.cetIbt then v.cetLegBitmapOffset.toNat else 0) =
      (if c'.cetIbt then v'.cetLegBitmapOffset.toNat else 0) := by
    rw [← hibt]
    split
    · next h => rw [hoff h]
    · rfl
  rw [measurementBlock, measurementBlock, hframe, hsize, hpart]

/-- After the commit MRENCLAVE is the measurement of the copied page. -/
theorem mrenclave_ecreateCommit (s : State) (pa : Nat) (page : List Byte) :
    ((ecreateCommit s ⟨pa, page⟩).secsxAt (frameOf pa)).mrenclave =
      sha256Block sha256Init (measurementBlock s.cfg (parseSecs s.cfg page)) := by
  rw [ecreateCommit_secsxAt_same]
  rfl

/-- A completion is the commit of the copy that is made. -/
theorem eq_ecreateCommit_of_next {s t : State} {pa : Nat} {page : List Byte} (hc : Copied s pa page)
    (h : execEnclsEcreate s = .next t) : t = ecreateCommit s ⟨pa, page⟩ := by
  obtain ⟨pa', page', hc', -, rfl⟩ := execEnclsEcreate_next_iff.1 h
  obtain ⟨rfl, rfl⟩ := hc.unique hc'
  rfl

/-! ### The obligations: faults after the copy -/

/-- Settles O26: items 7 and 8 of R163 are missed. -/
theorem badXfrmFaults : Obligations.BadXfrmFaults := by
  intro s pa page hc h
  refine lateFault_of_not_accepts hc fun ha => ?_
  rcases h with h | h
  · exact h ((toNat_mod_four_eq_three_iff _).2 ha.xfrmLow)
  · rw [ha.xfrmLegal] at h
    cases h

/-- Settles O27: each line is the negation of a condition on the CET fields. -/
theorem badCetFieldsFault : Obligations.BadCetFieldsFault := by
  rintro s pa page v hc rfl h
  refine lateFault_of_not_accepts hc fun ha => ?_
  rcases h with ⟨hcet, h⟩ | ⟨hibt, h⟩ | ⟨hss, h⟩ | h | h
  · obtain ⟨hattr, hoff⟩ := ha.cetOff hcet
    simp [hattr, hoff] at h
  · obtain ⟨hoff, hattr⟩ := ha.cetIbt hibt
    simp [hattr, hoff] at h
  · exact h (ha.cetSs hss)
  · exact h ha.cetReserved
  · exact h (Nat.mod_eq_zero_of_dvd ha.cetAligned)

/-- Settles O28: the place of the bitmap is a condition of acceptance. -/
theorem cetBitmapPlaceFaults : Obligations.CetBitmapPlaceFaults := by
  rintro s pa page v hc rfl h
  exact lateFault_of_not_accepts hc fun ha => h ha.cetPlace

/-- Settles O29: the bit is outside the mask of the supported ones. -/
theorem unsupportedMiscselectFaults : Obligations.UnsupportedMiscselectFaults := by
  rintro s pa page v i hc rfl hbit hsupp
  refine lateFault_of_not_accepts hc fun ha => ?_
  rw [getLsbD_mask_of_and_not_eq_zero ha.misc hbit] at hsupp
  cases hsupp

/-- Settles O30: the bound on the SSA frame is a condition of acceptance. -/
theorem smallSsaFrameFaults : Obligations.SmallSsaFrameFaults := by
  rintro s pa page v hc rfl h
  exact lateFault_of_not_accepts hc fun ha => absurd h (Nat.not_lt.2 ha.ssa)

/-- Settles O31: in each kind of enclave BASEADDR has its own range. -/
theorem baseaddrOutOfRangeFaults : Obligations.BaseaddrOutOfRangeFaults := by
  rintro s pa page v hc rfl h
  refine lateFault_of_not_accepts hc fun ha => ?_
  rcases h with ⟨hm, h⟩ | ⟨hm, h⟩
  · rw [(fitsEnclave_of_mode64 hm).1 ha.basePlace] at h
    cases h
  · exact absurd ((fitsEnclave_of_not_mode64 hm).1 ha.basePlace) (Nat.not_lt.2 h)

/-- Settles O32: in each kind of enclave SIZE has its own bound. -/
theorem sizeAtBoundFaults : Obligations.SizeAtBoundFaults := by
  rintro s pa page v hc rfl h
  refine lateFault_of_not_accepts hc fun ha => ?_
  have hbound := ha.sizeBound
  rcases h with ⟨hm, h⟩ | ⟨hm, h⟩
  · rw [if_neg (by simp [hm])] at hbound
    exact absurd hbound (Nat.not_lt.2 h)
  · rw [if_pos hm] at hbound
    exact absurd hbound (Nat.not_lt.2 h)

/-- Settles O33: each line is the negation of a condition of acceptance. -/
theorem badSizeOrMisalignedBaseFaults : Obligations.BadSizeOrMisalignedBaseFaults := by
  rintro s pa page v hc rfl h
  refine lateFault_of_not_accepts hc fun ha => ?_
  rcases h with h | h | h
  · exact absurd h (Nat.not_lt.2 ha.sizeMin)
  · obtain ⟨k, hk⟩ := ha.sizePower
    exact h k hk
  · exact h ha.baseAligned

/-- Settles O34: each line is the negation of a condition of acceptance. -/
theorem attributesReservedConfigFault : Obligations.AttributesReservedConfigFault := by
  rintro s pa page v hc rfl h
  refine lateFault_of_not_accepts hc fun ha => ?_
  rcases h with ⟨i, hbit, hmask⟩ | h | ⟨hkss, h⟩
  · rw [getLsbD_mask_of_and_not_eq_zero ha.attributes hbit] at hmask
    cases hmask
  · rw [ha.reservedZero] at h
    cases h
  · rcases ha.configId with hk | ⟨hid, hsvn⟩
    · rw [hk] at hkss
      cases hkss
    · simp [hid, hsvn] at h

/-! ### The obligations: completion -/

/-- Settles O36: the next state is that of the commit. -/
theorem ecreateCompletesWithThisState : Obligations.EcreateCompletesWithThisState := by
  intro s pa page hc ha
  rw [exec_enclsEcreate, execEnclsEcreate_accepted hc ha, ecreateCommit_eq_withWrittenOf, State.withWrittenOf]
  simp only [ecreateCommit_pc, ecreateCommit_nextEid, ecreateCommit_vmcs, ecreateCommit_mem, ecreateCommit_epcm,
    ecreateCommit_secsx, ecreateCommit_freeCount, createdEntry, createdHidden, ecreateMeasurement, Nat.zero_add]

/-- Settles O37: the only next state is that of the commit, after the copy and the checks on it. -/
theorem completesExactlyWhenAllConditionsHold : Obligations.CompletesExactlyWhenAllConditionsHold := by
  intro s
  constructor
  · rintro ⟨t, h⟩
    obtain ⟨pa, page, hc, ha, -⟩ := execEnclsEcreate_next_iff.1 h
    exact ⟨pa, page, hc, ha⟩
  · rintro ⟨pa, page, hc, ha⟩
    exact ⟨_, execEnclsEcreate_accepted hc ha⟩

/-- Settles O39: the record that the commit writes for the page is `createdHidden`. -/
theorem completionSetsHiddenFieldsAndCounter : Obligations.CompletionSetsHiddenFieldsAndCounter := by
  intro s pa page hc ha
  refine ⟨_, execEnclsEcreate_accepted hc ha, ?_⟩
  rw [ecreateCommit_secsxAt_same]
  exact ⟨rfl, rfl, rfl, rfl, rfl, ecreateCommit_nextEid s _, ecreateCommit_pc s _⟩

/-- Settles O41: the page holds the committed page, which is the copy outside the three fields. -/
theorem completionCopiesThePage : Obligations.CompletionCopiesThePage := by
  intro s pa page k hc ha hk hout
  refine ⟨_, execEnclsEcreate_accepted hc ha, ?_⟩
  simp only [List.forall_mem_cons, List.not_mem_nil, false_imp_iff, implies_true, and_true] at hout
  obtain ⟨hmr, hsvn, hprod⟩ := hout
  rw [read_committed s pa page k hc hk, getD_committedPage _ _ (by rwa [hc.length]), if_neg (by omega),
    if_neg (by omega)]

/-- Settles O42: the block is `measurementBlock`. -/
theorem completionMeasuresTheBlock : Obligations.CompletionMeasuresTheBlock := by
  rintro s pa page v hc rfl ha
  exact ⟨_, _, execEnclsEcreate_accepted hc ha, mrenclave_ecreateCommit s pa page, length_measurementBlock _ _,
    leNat_measurementBlock _ _⟩

/-- Settles O56: both measurements are of one block. -/
theorem measurementDependsOnThreeFields : Obligations.MeasurementDependsOnThreeFields := by
  intro s s' t t' pa pa' page page' hc hc' h h' hibt hframe hsize hoff
  rw [eq_ecreateCommit_of_next hc h, eq_ecreateCommit_of_next hc' h', mrenclave_ecreateCommit, mrenclave_ecreateCommit,
    measurementBlock_congr hibt hframe hsize hoff]

/-- Settles O43: the block step is evaluated in the kernel. -/
theorem hashOfAbcIsThePublishedDigest : Obligations.HashOfAbcIsThePublishedDigest := by
  unfold Obligations.HashOfAbcIsThePublishedDigest
  decide +kernel

end Sys2Proof.Machine
end

section
/-! PROOFS. Executions that are compared with one another: the instruction executed again (40_ecreate.md R164,
60_exceptions.md R193), and start states that differ only in what the instruction does not read (10_state.md R22;
20_memory.md R60; 40_ecreate.md R146, R150, R151; 60_exceptions.md R195). -/

namespace Sys2Proof.Machine

/-! ### The instruction executed again -/

/-- After a fault past the copy the copy can be made again. -/
theorem Copied.forgetEpcData {s : State} {pa : Nat} {page : List Byte} (hm : s.mem.wf = true) (hc : Copied s pa page) :
    Copied (s.forgetEpcData (frameOf pa)) pa page :=
  have hp := hc.premises.congr (t := s.forgetEpcData (frameOf pa)) rfl rfl rfl rfl rfl rfl rfl
    (pcFits_iff.2 hc.premises.pcFits)
  (sameReads_forgetEpcData hm (frameOf pa)).copied hp rfl rfl hc

/-- After the commit the same operands get as far as the EPCM entry again. -/
theorem Copied.reachesEntry_ecreateCommit {s : State} {pa : Nat} {page : List Byte} (hm : s.mem.wf = true)
    (hc : Copied s pa page) (hpc : (ecreateCommit s ⟨pa, page⟩).pcOverflows 3 = false) :
    ∃ pageinfo, ReachesEntry (ecreateCommit s ⟨pa, page⟩) pa pageinfo := by
  have hsame := sameReads_ecreateCommit hm (pa := pa) hc.length
  have hp : Premises (ecreateCommit s ⟨pa, page⟩) :=
    hc.premises.congr hsame.gpr (ecreateCommit_cpl ..) (ecreateCommit_inEnclave ..) (ecreateCommit_sgxEnabled ..) hsame.cfg
      (ecreateCommit_inSmm ..) (ecreateCommit_interruptPending ..) hpc
  obtain ⟨pageinfo, hr, -⟩ := hc
  exact ⟨pageinfo, hsame.reachesEntry hp rfl hr.toReachesEntry⟩

/-! ### Outcomes that agree but for a part of the state -/

/-- A map that leaves the state of an outcome as it is leaves the outcome as it is. -/
theorem mapOutcome_eq_self {g : State → State} {o : Host.Outcome State Fault Refusal}
    (h : ∀ t, endState o = some t → g t = t) : mapOutcome g o = o := by
  cases o with
  | next t => rw [mapOutcome_next, h t rfl]
  | refused r => rfl
  | fault f =>
    rw [mapOutcome_fault]
    cases f with
    | gp code pc after => rw [mapFault, h after rfl]
    | pf la code pc after => rw [mapFault, h after rfl]
    | vmExit v after => rw [mapFault, h after rfl]

/-- Two start states with the same premises, configuration and answer of the checks have the same outcome up to `g`, if their
endings and their commits agree up to `g`. -/
theorem execEnclsEcreate_congr {g : State → State} {s s' : State} (hprem : premiseRefusal s' = premiseRefusal s)
    (hchecks : ecreateChecks s' = ecreateChecks s) (hcfg : s'.cfg = s.cfg)
    (hearly : ∀ e, mapOutcome g (endWith s' e) = mapOutcome g (endWith s e))
    (hlate : ∀ p, mapOutcome g (endWith (s'.forgetEpcData p) .gp) = mapOutcome g (endWith (s.forgetEpcData p) .gp))
    (hcommit : ∀ t, g (ecreateCommit s' t) = g (ecreateCommit s t)) :
    mapOutcome g (execEnclsEcreate s') = mapOutcome g (execEnclsEcreate s) := by
  unfold execEnclsEcreate
  rw [hprem]
  cases premiseRefusal s with
  | some r => rfl
  | none =>
    simp only [ecreateBody, hchecks, hcfg]
    cases ecreateChecks s with
    | error e => exact hearly e
    | ok t =>
      cases hr : secsRejected s.cfg t.secs with
      | true => simpa only [hr, if_true] using hlate (planFrame t)
      | false => simp only [hr, Bool.false_eq_true, if_false, mapOutcome_next, hcommit t]

/-! ### Other general registers -/

section
variable (s : State) (g : Gprs)

/-- The checks before the copy read the general registers only as the two effective addresses. -/
theorem ecreateChecks_withGpr (hb : State.eaRbx { s with gpr := g } = s.eaRbx)
    (hc : State.eaRcx { s with gpr := g } = s.eaRcx) : ecreateChecks { s with gpr := g } = ecreateChecks s := by
  simp only [ecreateChecks, entryInUseEnding, hb, hc]
  rfl

theorem premiseRefusal_withGpr (ha : State.eax { s with gpr := g } = s.eax) :
    premiseRefusal { s with gpr := g } = premiseRefusal s := by
  simp only [premiseRefusal, ha]
  rfl

/-- With other general registers that give the same leaf and addresses the outcome is the same, but for those registers. -/
theorem execEnclsEcreate_withGpr (ha : State.eax { s with gpr := g } = s.eax)
    (hb : State.eaRbx { s with gpr := g } = s.eaRbx) (hc : State.eaRcx { s with gpr := g } = s.eaRcx) :
    execEnclsEcreate { s with gpr := g } = mapOutcome (fun t => { t with gpr := g }) (execEnclsEcreate s) := by
  have hself : ∀ t, endState (execEnclsEcreate { s with gpr := g }) = some t → { t with gpr := g } = t := by
    intro t ht
    have hgpr : t.gpr = g := noGeneralRegisterChanges _ _ ht
    rw [← hgpr]
  rw [← mapOutcome_eq_self hself]
  refine execEnclsEcreate_congr (premiseRefusal_withGpr s g ha) (ecreateChecks_withGpr s g hb hc) rfl (fun e => ?_)
    (fun _ => rfl) (fun _ => rfl)
  cases e <;> rfl

end

theorem eax_withGpr {s : State} {g : Gprs} (h : g.rax.toNat % 2 ^ 32 = s.gpr.rax.toNat % 2 ^ 32) :
    State.eax { s with gpr := g } = s.eax := by
  rw [← BitVec.toNat_inj, State.eax, State.eax, BitVec.toNat_setWidth, BitVec.toNat_setWidth]
  exact h

/-! ### Another VMX setting -/

theorem ecreateCommit_withVmx (s : State) (nonRoot virtExt : Bool) (t : CopyPlan) :
    ecreateCommit { s with vmxNonRoot := nonRoot, epcVirtExt := virtExt } t =
      { ecreateCommit s t with vmxNonRoot := nonRoot, epcVirtExt := virtExt } := rfl

/-! ### Another memory -/

section
variable {s : State} {m : Memory}

/-- A read answers the same in another memory that has the same bytes there. -/
theorem memRead_withMem {site : PfSite} {what : SourceStructure} {e : Word64} {n : Nat}
    (h : ∀ a, s.translate (s.lin e) .read = some a → m.readBytes a n = s.mem.readBytes a n) :
    State.memReadNonEnclave { s with mem := m } site what e n = s.memReadNonEnclave site what e n := by
  cases hr : s.memReadNonEnclave site what e n with
  | error d =>
    have hcause := memRead_error.1 hr
    exact memRead_error.2 hcause
  | ok bs =>
    obtain ⟨hd, a, ha, rfl⟩ := memRead_ok.1 hr
    exact memRead_ok.2 ⟨hd, a, ⟨ha.resolves, ha.firstOutside, ha.lastOutside⟩, (h a ha.resolves).symm⟩

/-- Outside 64-bit mode a pointer of PAGEINFO is given by the low half of its field. -/
theorem effective_ofNat_congr (hm : s.mode64 = false) {x y : Nat} (h : x % 2 ^ 32 = y % 2 ^ 32) :
    s.effective (BitVec.ofNat 64 x) = s.effective (BitVec.ofNat 64 y) := by
  refine effective_congr_of_not_mode64 hm ?_
  rw [BitVec.toNat_ofNat, BitVec.toNat_ofNat]
  omega

/-- The checks before the copy answer the same in another memory whose PAGEINFO gives the same fields and addresses, with the
same structures there. -/
theorem ecreateChecks_withMem
    (h : ∀ a p q, s.translate (s.lin s.eaRbx) .read = some a → p = s.mem.readBytes a 32 → q = m.readBytes a 32 →
      unusedFieldsZero s.cfg q = unusedFieldsZero s.cfg p ∧
      tmpSrcpge s q = tmpSrcpge s p ∧ tmpSecinfo s q = tmpSecinfo s p ∧
      (∀ b, s.translate (s.lin (tmpSecinfo s p)) .read = some b → m.readBytes b 64 = s.mem.readBytes b 64) ∧
      ∀ b, s.translate (s.lin (tmpSrcpge s p)) .read = some b → m.readBytes b 4096 = s.mem.readBytes b 4096) :
    ecreateChecks { s with mem := m } = ecreateChecks s := by
  unfold ecreateChecks
  refine bind_congr fun _ => bind_congr fun _ => bind_congr fun pa => ?_
  cases hr : s.memReadNonEnclave .pageinfoRead .pageinfo s.eaRbx 32 with
  | error d =>
    have hcause := memRead_error.1 hr
    have hr' : State.memReadNonEnclave { s with mem := m } .pageinfoRead .pageinfo (State.eaRbx { s with mem := m }) 32 =
        .error d := memRead_error.2 hcause
    rw [hr']
    rfl
  | ok p =>
    obtain ⟨hd, a, ha, hp⟩ := memRead_ok.1 hr
    obtain ⟨hunused, hsrc, hsec, hsecBytes, hsrcBytes⟩ := h a p _ ha.resolves hp rfl
    have hr' : State.memReadNonEnclave { s with mem := m } .pageinfoRead .pageinfo (State.eaRbx { s with mem := m }) 32 =
        .ok (m.readBytes a 32) := memRead_ok.2 ⟨hd, a, ⟨ha.resolves, ha.firstOutside, ha.lastOutside⟩, rfl⟩
    have hsrc' : tmpSrcpge { s with mem := m } (m.readBytes a 32) = tmpSrcpge s p := hsrc
    have hsec' : tmpSecinfo { s with mem := m } (m.readBytes a 32) = tmpSecinfo s p := hsec
    have haddrs : sourceAddrsOk { s with mem := m } (m.readBytes a 32) = sourceAddrsOk s p := by
      rw [sourceAddrsOk, hsrc', hsec']
      rfl
    rw [hr']
    show (ensure _ _ >>= _) = (ensure _ _ >>= _)
    simp only [haddrs, hunused, hsrc', hsec', memRead_withMem hsecBytes, memRead_withMem hsrcBytes]
    rfl

end

/-! ### What software put in the overwritten fields -/

/-- The fields that the instruction overwrites (R150, R151). -/
def overwrittenFields (c : Config) : List FieldPos :=
  [c.secs.mrenclave, c.secs.isvsvn, c.secs.isvprodid]

/-- The fields that `parseSecs` and `secsReservedZero` read. -/
def readFields (c : Config) : List FieldPos :=
  [c.secs.size, c.secs.baseaddr, c.secs.ssaframesize, c.secs.miscselect, c.secs.cetLegBitmapOffset, c.secs.cetAttributes,
    c.secs.attributes, c.secs.configid, c.secs.configsvn] ++ c.secsReserved

theorem fieldPos_disjoint_comm {f g : FieldPos} (h : f.disjoint g = true) : g.disjoint f = true := by
  simp only [FieldPos.disjoint, decide_eq_true_eq] at h ⊢
  exact h.symm

/-- The fields of the SECS are the overwritten ones, MRSIGNER, and those that are read. -/
theorem secsFields_perm (c : Config) :
    (c.secs.fields ++ c.secsReserved).Perm (overwrittenFields c ++ c.secs.mrsigner :: readFields c) := by
  refine List.perm_iff_count.2 fun f => ?_
  simp only [SecsLayout.fields, overwrittenFields, readFields, List.cons_append,
    List.nil_append, List.count_cons]
  omega

theorem readFields_disjoint {c : Config} (h : c.wf = true) {f g : FieldPos} (hf : f ∈ readFields c)
    (hg : g ∈ overwrittenFields c) : g.disjoint f = true := by
  have hplaces : c.secsPlacesOk = true := by
    simp only [Config.wf, Bool.and_eq_true] at h
    tauto
  obtain ⟨-, hdisjoint⟩ := (Bool.and_eq_true _ _).mp hplaces
  have hpairs := (allDisjoint_iff_pairwise.1 hdisjoint).perm (secsFields_perm c) fieldPos_disjoint_comm
  exact (List.pairwise_append.1 hpairs).2.2 g hg f (List.mem_cons_of_mem _ hf)

theorem fieldBytes_congr {bs bs' : List Byte} {f : FieldPos} (hlen : bs.length = bs'.length)
    (h : ∀ k, f.off ≤ k → k < f.off + f.len → bs.getD k 0#8 = bs'.getD k 0#8) : fieldBytes bs f = fieldBytes bs' f := by
  refine List.ext_getElem (by simp [fieldBytes, hlen]) fun i hi hi' => ?_
  have hif : i < f.len := hi.trans_le (List.length_take_le ..)
  rw [← List.getD_eq_getElem _ 0#8 hi, ← List.getD_eq_getElem _ 0#8 hi', getD_fieldBytes _ _ hif, getD_fieldBytes _ _ hif]
  exact h _ (by omega) (by omega)

section
variable {c : Config} {page page' : List Byte}

theorem parseSecs_congr (h : ∀ f ∈ readFields c, fieldBytes page f = fieldBytes page' f) :
    parseSecs c page = parseSecs c page' := by
  simp only [readFields, List.cons_append, List.nil_append, List.forall_mem_cons] at h
  obtain ⟨hsize, hbase, hframe, hmisc, hoff, hcet, hattr, hid, hsvn, -⟩ := h
  simp only [parseSecs, fieldNat, hsize, hbase, hframe, hmisc, hoff, hcet, hattr, hid, hsvn]

theorem secsReservedZero_congr (hblank : blankOverwritten c page = blankOverwritten c page')
    (h : ∀ f ∈ readFields c, fieldBytes page f = fieldBytes page' f) :
    secsReservedZero c page = secsReservedZero c page' := by
  have hall : (c.secsReserved.all fun f => (fieldBytes page f).all (· == 0#8)) =
      c.secsReserved.all fun f => (fieldBytes page' f).all (· == 0#8) := by
    rw [Bool.eq_iff_iff, List.all_eq_true, List.all_eq_true]
    refine forall₂_congr fun f hf => ?_
    rw [h f (List.mem_append_right _ hf)]
  rw [secsReservedZero, secsReservedZero, hblank, hall]

theorem secsRejected_congr (hparse : parseSecs c page = parseSecs c page')
    (hreserved : secsReservedZero c page = secsReservedZero c page') : secsRejected c page = secsRejected c page' := by
  rw [secsRejected, secsRejected, hparse, secsReservedBad, secsReservedBad, hreserved]

/-- Pages that agree outside the overwritten fields, with one measurement, are committed as one page. -/
theorem committedPage_congr (hlen : page.length = page'.length)
    (hmeasure : ecreateMeasurement c page = ecreateMeasurement c page')
    (h : ∀ k, (∀ f ∈ overwrittenFields c, k < f.off ∨ f.off + f.len ≤ k) → page.getD k 0#8 = page'.getD k 0#8) :
    committedPage c page = committedPage c page' := by
  refine List.ext_getElem (by simp [hlen]) fun k hk hk' => ?_
  rw [← List.getD_eq_getElem _ 0#8 hk, ← List.getD_eq_getElem _ 0#8 hk']
  rw [length_committedPage] at hk hk'
  rw [getD_committedPage c page hk, getD_committedPage c page' hk', hmeasure]
  split
  · rfl
  · next hmr =>
    split
    · rfl
    · next hisv =>
      refine h k ?_
      simp only [overwrittenFields, List.forall_mem_cons, List.not_mem_nil, false_imp_iff, implies_true, and_true]
      omega

end

/-! ### The obligations -/

/-- Settles O54: the second execution finds the entry that the first one made valid. -/
theorem secondEcreateOnSamePagePageFaults : Obligations.SecondEcreateOnSamePagePageFaults := by
  intro s t hi h hpc
  obtain ⟨pa, page, hc, -, rfl⟩ := execEnclsEcreate_next_iff.1 h
  obtain ⟨pageinfo, hentry⟩ := hc.reachesEntry_ecreateCommit hi.memWf hpc
  have hcreated := ecreateCommit_epcmAt_same s pa page
  have hsame := sameReads_ecreateCommit hi.memWf (pa := pa) hc.length
  rw [validEntryPageFaults _ pa pageinfo hentry (by rw [hcreated]; rfl) (by rw [hcreated]; rfl), hsame.lin_eq,
    hsame.eaRcx_eq, ecreateCommit_cfg]

/-- Settles O55: a fault before the copy leaves the start state; one after it leaves a state from which the same copy is made
and rejected. -/
theorem retryWithoutRepairFaultsAlike : Obligations.RetryWithoutRepairFaultsAlike := by
  intro s t la code pc hi
  refine ⟨fun h => ?_, fun h => ?_⟩
  · rw [exec_enclsEcreate] at h
    rcases endState_cases s t (by rw [h]; rfl) with
      ⟨rfl, -⟩ | ⟨_, _, -, -, -, -, h', -⟩ | ⟨pa, page, hc, hr, h', rfl⟩ | ⟨_, _, -, -, h', -⟩
    · exact ⟨t, h⟩
    · rw [h] at h'; cases h'
    · rw [h] at h'
      cases h'
      exact ⟨_, (execEnclsEcreate_copied (hc.forgetEpcData hi.memWf)).trans (if_pos hr)⟩
    · rw [h] at h'; cases h'
  · obtain ⟨-, -, rfl, -⟩ := faultRecordsAreAsSpecified s _ h
    exact h

/-- Settles O57: the checks and the measurement read other fields, and the commit overwrites these. -/
theorem overwrittenFieldsHaveNoEffect : Obligations.OverwrittenFieldsHaveNoEffect := by
  intro c page page' hwf hl hl' h
  have hlen : page.length = page'.length := hl.trans hl'.symm
  have hfields : ∀ f ∈ readFields c, fieldBytes page f = fieldBytes page' f := fun f hf =>
    fieldBytes_congr hlen fun k hoff hend => h k fun g hg => by
      have hd := of_decide_eq_true (readFields_disjoint hwf hf hg)
      omega
  have hparse := parseSecs_congr hfields
  have hmeasure : ecreateMeasurement c page = ecreateMeasurement c page' := by
    rw [ecreateMeasurement, ecreateMeasurement, hparse]
  exact ⟨secsRejected_congr hparse (secsReservedZero_congr (blankOverwritten_congr c hlen h) hfields),
    committedPage_congr hlen hmeasure h, hmeasure⟩

/-- Settles O58: the conditions of a completion and the commit do not look at the VMX setting. -/
theorem completionIgnoresVirtualisation : Obligations.CompletionIgnoresVirtualisation := by
  intro s t nonRoot virtExt h
  obtain ⟨pa, page, hc, ha, rfl⟩ := execEnclsEcreate_next_iff.1 h
  have hsame : SameReads s { s with vmxNonRoot := nonRoot, epcVirtExt := virtExt } (frameOf pa) :=
    ⟨rfl, rfl, rfl, rfl, rfl, fun _ _ _ _ _ => rfl⟩
  have hp : Premises { s with vmxNonRoot := nonRoot, epcVirtExt := virtExt } :=
    hc.premises.congr rfl rfl rfl rfl rfl rfl rfl (pcFits_iff.2 hc.premises.pcFits)
  rw [← ecreateCommit_withVmx]
  exact execEnclsEcreate_accepted (hsame.copied hp rfl rfl hc) ha

/-- Settles O59: the two effective addresses and the leaf are the same. -/
theorem upperHalvesIgnoredOutside64BitMode : Obligations.UpperHalvesIgnoredOutside64BitMode := by
  intro s g hrax h
  have haddrs : s.effective g.rbx = s.eaRbx ∧ s.effective g.rcx = s.eaRcx := by
    rcases h with ⟨hm, hrbx, hrcx⟩ | ⟨hrbx, hrcx⟩
    · exact ⟨effective_congr_of_not_mode64 hm hrbx, effective_congr_of_not_mode64 hm hrcx⟩
    · rw [hrbx, hrcx]
      exact ⟨rfl, rfl⟩
  exact execEnclsEcreate_withGpr s g (eax_withGpr hrax) haddrs.1 haddrs.2

/-- Settles O60: the checks answer the same, and of everything else only memory differs. -/
theorem pageinfoUpperHalvesIgnoredOutside64BitMode : Obligations.PageinfoUpperHalvesIgnoredOutside64BitMode := by
  intro s m hm h
  have hchecks : ecreateChecks { s with mem := m } = ecreateChecks s := by
    refine ecreateChecks_withMem fun a p q ha hp hq => ?_
    obtain ⟨hlin, hsecs, hsrc, hsec, hsecBytes, hsrcBytes⟩ := h a p q ha hp hq
    exact ⟨by rw [unusedFieldsZero, unusedFieldsZero, hlin, hsecs], effective_ofNat_congr hm hsrc,
      effective_ofNat_congr hm hsec, hsecBytes, hsrcBytes⟩
  refine execEnclsEcreate_congr rfl hchecks rfl (fun e => ?_) (fun _ => rfl) (fun _ => rfl)
  cases e <;> rfl

end Sys2Proof.Machine
end
